-- ==== Sys2Proof/Word.lean ====
section
/-! DEFINITION. The bit-vector types of B4H-CORE: a byte, an opcode, a 5-bit symbol value.
Lengths, positions and indices are natural numbers (spec rule R121), so they have no type here. -/

namespace Sys2Proof

/-- A byte `b[7:0]`: one cell of a buffer, one character (R9, R50). -/
abbrev Byte := BitVec 8

/-- The command word `CMD[2:0]` (R42). -/
abbrev Opcode := BitVec 3

/-- The 5-bit number a symbol stands for, `v[4:0]` (R9, R51). -/
abbrev SymVal := BitVec 5

end Sys2Proof
end

