-- ==== Sys2Proof/Config.lean ====
section
/-! DEFINITION. What is fixed for one instance of the block, and the free values (`UNSPEC`, R9).
The opaque constants have no body: no proof can depend on what they are. -/

namespace Sys2Proof.Config

/-- The default of the hardware parameter `LENW` (R7). The parameter itself is the field `lenw` of
State, so that every claim is about every value of it (log 3). -/
def lenwDefault : Nat := 16

/-- The least value `LENW` may have (R7). -/
def lenwMin : Nat := 4

/-- The capacity of a buffer, `IBUF_MAX = OBUF_MAX = 2^LENW - 1` (R7). -/
def bufMax (lenw : Nat) : Nat := 2 ^ lenw - 1

/-- Which read of an `IBUF` cell a free byte stands for. No two reads of one command have both the same
site and the same index, so a byte that nothing has written is drawn freely at each read (R116, U8).
Log 2. -/
inductive ReadSite where
  /-- `Bz(j)` inside PACKSYM for symbol `k` (R65) -/
  | symbol (k : Nat)
  /-- the pass that skips separators, `nonsep` (R9, R80) -/
  | scan
  /-- the padding digit `IBUF[X[0]]` (R81, R87) -/
  | digit
  /-- a data character of DEC or DECS (R81, R82) -/
  | data
  /-- the alphabet test of CHKA (R87) -/
  | check
  /-- the last eight symbols in CHKA (R87) -/
  | ending
  /-- the position test of CHKS and CHKW (R86, R88) -/
  | cadence
  /-- a read by the host (R118) -/
  | hostPort
  deriving DecidableEq, Repr

/-- What an `IBUF` cell that nothing has written since reset reads as: a free value of the draw counter, the read
site and the index (R21, R29, R116; U7, U8). -/
opaque unspecIbuf (draw : Nat) (site : ReadSite) (index : Nat) : Byte

/-- What an `OBUF` cell that holds no result reads as, and what every `OBUF` cell reads as while
`BUSY = 1`: a free value of the draw counter and the index (R22, R29, R96, R113; U5, U6, U7, U9). -/
opaque unspecObuf (draw index : Nat) : Byte

/-- What a result register reads as while `BUSY = 1`: a free value of the draw counter and the register
number (R113; U9). The reader cuts it to the register's width. -/
opaque unspecReg (draw number : Nat) : Nat

/-- The byte the host loads for a character of a quoted text whose code is above `0xFF`. R9 and R50 give every character one byte
and say nothing of such a character, so it is a free value of the code. DESIGN CHOICE, safe. Log 12. -/
opaque wideCharCode (code : Nat) : Byte

end Sys2Proof.Config
end

