-- ==== Sys2Proof/Syntax.lean ====
section
/-! DEFINITION. The command set (spec rules R2, R42, R43): one constructor for each row of
spec/opcode_table.json. No command has an operand field (R42, R45). -/

namespace Sys2Proof

/-- The eight command words of R43: the reserved opcode and the seven commands. -/
inductive Instr where
  /-- opcode 0, reserved (R44, R103) -/
  | rsvd
  /-- `encode` (R76) -/
  | enc
  /-- `encodeStrict` (R77) -/
  | encs
  /-- `decode` (R81) -/
  | dec
  /-- `decodeStrict` (R82) -/
  | decs
  /-- `isWellFormatted` (R88) -/
  | chkw
  /-- `isAcceptable` (R87) -/
  | chka
  /-- `isStrict` (R86) -/
  | chks
  deriving DecidableEq, Repr

end Sys2Proof
end

