-- ==== Sys2Proof/Protocol.lean ====
section
/-! DEFINITION. The host side of the block as data: the register numbers (spec rule R12), what the host can do
(R47, R118), and whose turn it is (R8, R40). -/

namespace Sys2Proof

/-- The eight host-visible registers (R12). -/
inductive HostReg where
  | cmd | ctrl | ilen | status | olen | epos | echar | pad
  deriving DecidableEq, Repr

/-- The two data address spaces (R30). -/
inductive Buffer where
  | ibuf | obuf
  deriving DecidableEq, Repr

/-- One action of the host on the block (R14, R15, R21, R22, R47, R105, R118). -/
inductive HostAction where
  /-- write a register word -/
  | writeReg (r : HostReg) (v : Nat)
  /-- write one byte of a buffer -/
  | writeCell (b : Buffer) (index : Nat) (v : Byte)
  /-- read a register word -/
  | readReg (r : HostReg)
  /-- read one byte of a buffer -/
  | readCell (b : Buffer) (index : Nat)
  /-- `MOVO` of R47: copy `OBUF[0 .. OLEN-1]` to `IBUF` and write `OLEN`'s value to `ILEN` -/
  | movo
  /-- assert and release the reset input (R105, R107) -/
  | reset
  deriving DecidableEq, Repr

/-- One turn: the two agents of R8 interleaved as plain data (log 1). -/
inductive Move where
  /-- the core has the turn (R111) -/
  | core
  /-- the host acts -/
  | host (a : HostAction)
  /-- the host waits until `STATUS.DONE = 1` (R47 `RUN`, R118), the core having the turns meanwhile -/
  | await
  deriving DecidableEq, Repr

/-- What the host read, and where (R118 "collect"). -/
inductive Observation where
  | reg (r : HostReg) (v : Nat)
  | cell (b : Buffer) (index : Nat) (v : Byte)
  deriving DecidableEq, Repr

end Sys2Proof
end

