-- ==== Sys2Proof/WellFormed.lean ====
section
/-! DEFINITION. Well-formedness. A command has no operand (spec rules R42, R45), so there is nothing in one to check; a
host action that names a cell must name one the buffer has (R21, R22). A register word of any size may be written: the
bits above the register's width are ignored (R12). -/

namespace Sys2Proof

/-- Every command word is a command with a stated effect (R43, R44) and has no field that could be wrong. -/
def Instr.wellFormed : Instr → Bool
  | .rsvd => true
  | .enc => true
  | .encs => true
  | .dec => true
  | .decs => true
  | .chkw => true
  | .chka => true
  | .chks => true

/-- A host action that names only cells the block has (R31, R32), for a given `LENW`. -/
def HostAction.wellFormed (lenw : Nat) : HostAction → Bool
  | .writeReg _ _ => true
  | .writeCell _ i _ => decide (i < Config.bufMax lenw)
  | .readReg _ => true
  | .readCell _ i => decide (i < Config.bufMax lenw)
  | .movo => true
  | .reset => true

/-- A turn whose action is well-formed. -/
def Move.wellFormed (lenw : Nat) : Move → Bool
  | .core => true
  | .await => true
  | .host a => a.wellFormed lenw

end Sys2Proof
end

