-- ==== Sys2Proof/Decode.lean ====
section
/-! DEFINITION. The command word and its meaning as a command (spec rules R42 to R46), and the encoder.
Every value of the three bits is a row of the opcode map, so decoding refuses no word (R44: "There is ... no other
illegal encoding"); the reserved word 000 is a row of its own. -/

namespace Sys2Proof

/-- The command in `op[2:0]`, read bit by bit: `op[2]`, `op[1]`, `op[0]` as the column "binary" of R43 writes them. -/
def decode (op : Opcode) : Instr :=
  match op.getLsbD 2, op.getLsbD 1, op.getLsbD 0 with
  | false, false, false => .rsvd
  | false, false, true  => .enc
  | false, true,  false => .encs
  | false, true,  true  => .dec
  | true,  false, false => .decs
  | true,  false, true  => .chkw
  | true,  true,  false => .chka
  | true,  true,  true  => .chks

/-- The column "op" of R43. -/
def encode : Instr → Opcode
  | .rsvd => 0
  | .enc => 1
  | .encs => 2
  | .dec => 3
  | .decs => 4
  | .chkw => 5
  | .chka => 6
  | .chks => 7

/-- The opcode a register word written to `CMD` leaves there: "Bits of a register word above the stated width
read 0 and ignore writes" (R12). -/
def commandOfWord (w : Nat) : Opcode := BitVec.ofNat 3 w

/-- The command the decoder reads from a word of `nbits` bits (the bits above them 0). No word is refused: `CMD`
keeps its low three bits (R12) and each of their values is in the opcode map (R43). -/
def decodeTableWord (nbits w : Nat) : Option Instr :=
  some (decode (commandOfWord (w % 2 ^ nbits)))

end Sys2Proof
end

