-- ==== Sys2Proof/Machine/State.lean ====
section
/-! DEFINITION. The state of B4H-CORE (spec rules R10 to R29), why a step can stop, and the state after reset. -/

namespace Sys2Proof.Machine

/-- The codes of `STATUS.ERR`, in the order of their numbers 0 to 7 (R48). -/
inductive ErrCode where
  | ok | nil | len | pad | chr | pcons | cap | ill
  deriving DecidableEq, Repr

/-- A buffer: the cells that hold a value, as (index, byte) pairs with strictly rising indices. A cell that is not
listed holds no value the spec fixes (`UNSPEC`, R9), so no listed cell equals what an unlisted one reads as. Log 2. -/
abbrev Memory := List Host.Cell

/-- The state of the block and of the host's side of the protocol. -/
structure State where
  /-- `CMD` (R13): the opcode of the command to run -/
  cmd : Opcode
  /-- `ILEN` (R15): the length of the input in bytes -/
  ilen : Nat
  /-- `STATUS[0]`, `BUSY` (R16) -/
  busy : Bool
  /-- `STATUS[1]`, `DONE` (R16) -/
  done : Bool
  /-- `STATUS[2]`, `RESULT` (R16) -/
  result : Bool
  /-- `STATUS[3]`, `IN_VALID` (R16) -/
  inValid : Bool
  /-- `STATUS[6:4]`, `ERR` (R16, R48) -/
  err : ErrCode
  /-- `OLEN` (R17): the length of the output in bytes -/
  olen : Nat
  /-- `EPOS` (R18): the position of the offending character -/
  epos : Nat
  /-- `ECHAR` (R19): the offending character -/
  echar : Byte
  /-- `PAD` (R20): the padding computed or parsed by the last command -/
  pad : BitVec 3
  /-- `IBUF` (R21): the cells the host has written since reset -/
  ibuf : Memory
  /-- `OBUF` (R22): the cells whose value the spec fixes -/
  obuf : Memory
  /-- the hardware parameter `LENW` (R7), which no step changes (log 3) -/
  lenw : Nat
  /-- the model's own: the counter that free values are drawn with (log 2) -/
  draws : Nat
  /-- the model's own: the turns still to come, oldest first; none left, and the core has every turn (log 1) -/
  moves : List Move
  /-- the model's own: what the host has read, oldest first (log 1) -/
  seen : List Observation
  deriving DecidableEq, Repr

/-- Why a step has no next state. The spec's own faults (R91) are not here: they end a command in a NEXT state with `ERR`
set (R96). -/
inductive Fault where
  /-- Raised by a HOST read or write of a cell at an index the buffer does not have (R21, R22 give the indices
  `0 .. 2^LENW - 2`), and by `MOVO` with an `OLEN` beyond them, which no reachable state has. No command raises it.
  Safe: the machine stops where the spec says nothing. Log 5. -/
  | noSuchCell (buf : Buffer) (index : Nat)
  deriving DecidableEq, Repr

/-- Why an instruction has no meaning. -/
inductive Refusal where
  /-- For an arm of `exec` that has no meaning yet; none is left, so nothing raises it. Safe. -/
  | notModelled (mnemonic : String)
  deriving DecidableEq, Repr

/-- The state after reset (R29, R105): every register 0, both buffers `UNSPEC`. `LENW` is the default of R7; `draws`, `moves`
and `seen` are the model's own and start empty (log 1, log 2). -/
def State.reset : State where
  cmd := 0
  ilen := 0
  busy := false
  done := false
  result := false
  inValid := false
  err := .ok
  olen := 0
  epos := 0
  echar := 0
  pad := 0
  ibuf := []
  obuf := []
  lenw := Config.lenwDefault
  draws := 0
  moves := []
  seen := []

end Sys2Proof.Machine
end

