-- ==== Sys2Proof/Machine/Ops.lean ====
section
/-! DEFINITION. The named operations over buffers and registers: reading and writing a cell, an accepted `START`,
the three ways a command ends (delivering an output, answering a predicate, a fault). -/

namespace Sys2Proof.Machine

/-! ## Buffers (spec rules R21, R22, R30 to R36) -/

/-- The value a cell holds, if the spec fixes one. -/
def Memory.lookup : Memory → Nat → Option Byte
  | [], _ => none
  | (i, b) :: m, a => if i = a then some b else Memory.lookup m a

/-- `BUF[a] <- b` (R9, R36): the cell is listed in its place, an older value of it is replaced. -/
def Memory.write : Memory → Nat → Byte → Memory
  | [], a, b => [(a, b)]
  | (i, c) :: m, a, b =>
    if a < i then (a, b) :: (i, c) :: m
    else if a = i then (a, b) :: m
    else (i, c) :: Memory.write m a b

/-- The canonical form: indices strictly rising, every index one the buffer has. -/
def Memory.wf (cap : Nat) (m : Memory) : Bool :=
  decide (m.Pairwise (fun x y => x.1 < y.1)) && m.all (fun c => decide (c.1 < cap))

/-- The bytes `bs` in the cells from index `i` on. -/
def Memory.ofBytesFrom : Nat → List Byte → Memory
  | _, [] => []
  | i, b :: bs => (i, b) :: Memory.ofBytesFrom (i + 1) bs

/-- A byte sequence in rising index order from index 0 (R34); every other cell is `UNSPEC`. -/
def Memory.ofBytes (bs : List Byte) : Memory := Memory.ofBytesFrom 0 bs

/-- `IBUF_MAX` (R7). -/
def State.ibufMax (s : State) : Nat := Config.bufMax s.lenw

/-- `OBUF_MAX` (R7). -/
def State.obufMax (s : State) : Nat := Config.bufMax s.lenw

/-- One read of `IBUF[i]`: the byte the host wrote, or a free byte for this read (R116, log 2). -/
def State.readIbuf (s : State) (site : Config.ReadSite) (i : Nat) : Byte :=
  match s.ibuf.lookup i with
  | some b => b
  | none => Config.unspecIbuf s.draws site i

/-! ## Registers -/

/-- `CMD <- op` (R13). -/
def State.setCmd (op : Opcode) (s : State) : State := { s with cmd := op }

/-- `PAD <- p` (R20). -/
def State.setPad (p : Nat) (s : State) : State := { s with pad := BitVec.ofNat 3 p }

/-- A host write of `ILEN`: the low `LENW` bits are kept and the input is declared present (R12, R15). -/
def State.setIlen (v : Nat) (s : State) : State := { s with ilen := v % 2 ^ s.lenw, inValid := true }

/-- `CTRL.INVAL` (R14): the input becomes absent. -/
def State.clearInput (s : State) : State := { s with inValid := false }

/-- An accepted `START` (R110): `BUSY` is set, `DONE` and every result register is cleared; `CMD`, `ILEN`, `IN_VALID`, `IBUF`
and `OBUF` stay. The draw counter moves on, so that a read made while `BUSY = 1` need not agree with one made before the `START`
(R36, R113, log 2). -/
def State.acceptStart (s : State) : State :=
  { s with
    busy := true, done := false, result := false, err := .ok, olen := 0, epos := 0, echar := 0, pad := 0
    draws := s.draws + 1 }

/-! ## How a command ends -/

/-- The end of every command (R75, R111): `BUSY <- 0`, `DONE <- 1`. The draw counter moves on, so that what is
`UNSPEC` after this command is drawn anew (R114, log 2). -/
def State.finish (s : State) : State := { s with busy := false, done := true, draws := s.draws + 1 }

/-- `fault E` (R9, R96), the one shared operation of taking a fault: `ERR <- E`, `OLEN <- 0`, every cell of `OBUF` becomes
`UNSPEC`, and the command ends. `PAD`, `EPOS`, `ECHAR` and `RESULT` stay as they were before it. -/
def State.raise (e : ErrCode) (s : State) : State := State.finish { s with err := e, olen := 0, obuf := [] }

/-- `fault E_CHR(EPOS <- i, ECHAR <- c)` (R95, R96). -/
def State.raiseChr (i : Nat) (c : Byte) (s : State) : State := State.raise .chr { s with epos := i, echar := c }

/-- `return b` of a predicate (R9, R85): `RESULT <- b`, and the command ends. -/
def State.answer (b : Bool) (s : State) : State := State.finish { s with result := b }

/-- The end of an encode or decode command that succeeds (R17, R22): the output is `n` bytes, in the cells `out`, every other
cell of `OBUF` is `UNSPEC`. -/
def State.deliver (out : Memory) (n : Nat) (s : State) : State := State.finish { s with obuf := out, olen := n }

/-- The reset input (R105, R107): every register and both buffers as after reset, whatever ran before. The hardware parameter
and the host's side stay; the draw counter moves on, so that the buffers are `UNSPEC` anew (log 2). -/
def State.resetInput (s : State) : State :=
  { State.reset with lenw := s.lenw, draws := s.draws + 1, moves := s.moves, seen := s.seen }

end Sys2Proof.Machine
end

