-- ==== Sys2Proof/Machine/Rom.lean ====
section
/-! DEFINITION. The three lookup ROMs (spec rules R24 to R27): constants, never written. -/

namespace Sys2Proof.Machine

/-- `ENC_ROM` (R25), entries 0 to 15: the codes of `0123456789abcdef` (R51). -/
def encRomLow : List Byte :=
  [0x30, 0x31, 0x32, 0x33, 0x34, 0x35, 0x36, 0x37, 0x38, 0x39, 0x61, 0x62, 0x63, 0x64, 0x65, 0x66]

/-- `ENC_ROM` (R25), entries 16 to 31: the codes of `ghjkmnpqrstvwxyz` (R51). -/
def encRomHigh : List Byte :=
  [0x67, 0x68, 0x6A, 0x6B, 0x6D, 0x6E, 0x70, 0x71, 0x72, 0x73, 0x74, 0x76, 0x77, 0x78, 0x79, 0x7A]

/-- `ENC_ROM` (R25): 32 entries of 8 bits; entry `v` is the code of the symbol of value `v`. -/
def encRom : List Byte := encRomLow ++ encRomHigh

/-- The separator `'-'` (R52). -/
def sep : Byte := 0x2D

/-- One entry of `DEC_ROM`, `is_sep[6], valid[5], val[4:0]` (R26). -/
structure DecEntry where
  isSep : Bool
  valid : Bool
  val : SymVal
  deriving DecidableEq, Repr

/-- An entry of a symbol of value `v` (R26). -/
def symEntry (v : SymVal) : DecEntry := ⟨false, true, v⟩

/-- `DEC_ROM` (R26), the digits `'0'..'9'`. -/
def decRomDigits : List (Byte × DecEntry) :=
  [(0x30, symEntry 0), (0x31, symEntry 1), (0x32, symEntry 2), (0x33, symEntry 3), (0x34, symEntry 4),
   (0x35, symEntry 5), (0x36, symEntry 6), (0x37, symEntry 7), (0x38, symEntry 8), (0x39, symEntry 9)]

/-- `DEC_ROM` (R26), the letters from `a` to `k`, `i` left out (R51). -/
def decRomLetters1 : List (Byte × DecEntry) :=
  [(0x61, symEntry 10), (0x62, symEntry 11), (0x63, symEntry 12), (0x64, symEntry 13), (0x65, symEntry 14),
   (0x66, symEntry 15), (0x67, symEntry 16), (0x68, symEntry 17), (0x6A, symEntry 18), (0x6B, symEntry 19)]

/-- `DEC_ROM` (R26), the letters from `m` to `z`, `o` and `u` left out (R51). -/
def decRomLetters2 : List (Byte × DecEntry) :=
  [(0x6D, symEntry 20), (0x6E, symEntry 21), (0x70, symEntry 22), (0x71, symEntry 23), (0x72, symEntry 24),
   (0x73, symEntry 25), (0x74, symEntry 26), (0x76, symEntry 27), (0x77, symEntry 28), (0x78, symEntry 29),
   (0x79, symEntry 30), (0x7A, symEntry 31)]

/-- The entries of `DEC_ROM` that are not zero: the separator and the 32 symbols (R26). -/
def decRomRows : List (Byte × DecEntry) :=
  (sep, ⟨true, false, 0⟩) :: (decRomDigits ++ decRomLetters1 ++ decRomLetters2)

/-- `DEC_ROM[c]` (R26): "Every other entry, 223 of them, is `is_sep = 0`, `valid = 0`, `val = 0`". -/
def decRom (c : Byte) : DecEntry := (decRomRows.lookup c).getD ⟨false, false, 0⟩

/-- One entry of `PADEND_ROM` (R27): how many trailing symbols must be `'0'`, how many low bits of the boundary symbol
must be 0, and the same as a mask of allowed values. -/
structure PadEndEntry where
  zcount : Nat
  lowz : Nat
  allow : BitVec 32
  deriving DecidableEq, Repr

/-- `PADEND_ROM[p]` (R27): entries for `p = 1..4` and no other. The sets and sizes of conflict C1 are followed. -/
def padEndRom (p : Nat) : Option PadEndEntry :=
  match p with
  | 1 => some ⟨1, 3, 0x01010101⟩
  | 2 => some ⟨3, 1, 0x55555555⟩
  | 3 => some ⟨4, 4, 0x00010001⟩
  | 4 => some ⟨6, 2, 0x11111111⟩
  | _ => none

end Sys2Proof.Machine
end

