-- ==== Sys2Proof/Machine/Units.lean ====
section
/-! DEFINITION. The functional units (spec rules R58 to R74): pure functions of their inputs and the ROMs. All arithmetic is on
natural numbers, cut only where the rules write `& 31` and `& 0xFF` (R121). -/

namespace Sys2Proof.Machine

/-! ## Alphabet (R59 to R61) -/

/-- `is_sep(c)` of CLASS (R59). -/
def isSep (c : Byte) : Bool := (decRom c).isSep

/-- `valid(c)` of CLASS (R59). -/
def valid (c : Byte) : Bool := (decRom c).valid

/-- `SYM2VAL(c)` (R60); 0 for a byte that is no symbol. -/
def sym2val (c : Byte) : SymVal := (decRom c).val

/-- `VAL2SYM(v)` (R61). -/
def val2sym (v : SymVal) : Byte := encRom.getD v.toNat 0

/-! ## Padding digit (R62 to R64) -/

/-- `PADCALC(L)` (R62). -/
def padCalc (L : Nat) : Nat := (5 - L % 5) % 5

/-- `PADENC(p)` (R63). -/
def padEnc (p : Nat) : Byte := val2sym (BitVec.ofNat 5 p)

/-- `PADDEC(c)` (R64): the padding when `c` is a valid padding digit. -/
def padDec (c : Byte) : Option Nat :=
  if valid c && decide ((sym2val c).toNat ≤ 4) then some (sym2val c).toNat else none

/-! ## Bit-packer (R65 to R67) -/

/-- `Bz(j)` (R65): bytes past the end read as zero. -/
def zeroPast (B : Nat → Byte) (L j : Nat) : Nat := if j < L then (B j).toNat else 0

/-- `PACKSYM(B, L, k)` (R65). -/
def packSym (B : Nat → Byte) (L k : Nat) : SymVal :=
  let j := 5 * k / 8
  let off := 5 * k % 8
  if off ≤ 3 then
    BitVec.ofNat 5 ((zeroPast B L j >>> (3 - off)) &&& 31)
  else
    BitVec.ofNat 5 (((zeroPast B L j <<< (off - 3)) ||| (zeroPast B L (j + 1) >>> (11 - off))) &&& 31)

/-- The barrel-shifter form of the packer (R66): a window of two bytes, shifted right by `11 - off`, cut to 5 bits. -/
def packSymBarrel (B : Nat → Byte) (L k : Nat) : SymVal :=
  let j := 5 * k / 8
  let off := 5 * k % 8
  BitVec.ofNat 5 (((zeroPast B L j * 256 + zeroPast B L (j + 1)) >>> (11 - off)) &&& 31)

/-- `NSYM(M) = ceil(8*M / 5)` (R67, R123). -/
def nsym (M : Nat) : Nat := (8 * M + 4) / 5

/-! ## Bit-unpacker (R68 to R70) -/

/-- `W[j] |<- b` (R9). -/
def orAt (W : List Byte) (j : Nat) (b : Byte) : List Byte := W.modify j (fun w => w ||| b)

/-- `UNPACK(W, nbytes, i, v)` (R68). -/
def unpack (W : List Byte) (nbytes i : Nat) (v : SymVal) : List Byte :=
  let j := 5 * i / 8
  let mod := 5 * i % 8
  if mod < 4 then
    if j < nbytes then orAt W j (BitVec.ofNat 8 ((v.toNat <<< (3 - mod)) &&& 0xFF)) else W
  else
    let W1 := if j < nbytes then orAt W j (BitVec.ofNat 8 (v.toNat >>> (mod - 3))) else W
    if j + 1 < nbytes then orAt W1 (j + 1) (BitVec.ofNat 8 ((v.toNat <<< (11 - mod)) &&& 0xFF)) else W1

/-- The barrel-shifter form of the unpacker (R69): `v` in a 16-bit window as `v << (11 - mod)`, the high byte of the window to
`W[j]`, the low byte to `W[j+1]`, neither past the output (R68). -/
def unpackBarrel (W : List Byte) (nbytes i : Nat) (v : SymVal) : List Byte :=
  let j := 5 * i / 8
  let window := v.toNat <<< (11 - 5 * i % 8)
  let W1 := if j < nbytes then orAt W j (BitVec.ofNat 8 (window >>> 8)) else W
  if j + 1 < nbytes then orAt W1 (j + 1) (BitVec.ofNat 8 (window &&& 0xFF)) else W1

/-- `NBYTES(n)` (R70). -/
def nbytes (n : Nat) : Nat := 5 * n / 8

/-! ## Padding-ending checker (R72) -/

/-- `ENDCHK(p, T)` (R72): nothing is checked for a padding without an entry in the ROM (R27). -/
def endChk (p : Nat) (T : Nat → SymVal) : Bool :=
  match padEndRom p with
  | none => true
  | some e =>
    (List.range 8).all (fun t => decide (t ≤ 7 - e.zcount) || T t == 0)
      && (T (7 - e.zcount)).toNat &&& ((1 <<< e.lowz) - 1) == 0

/-! ## Position generators (R74) -/

/-- `POSN(k)` (R74): where symbol `k` stands in the normal form. -/
def posN (k : Nat) : Nat := 2 + k + k / 4

/-- `POSS(k)` (R74): where symbol `k` stands in the strict form. -/
def posS (k : Nat) : Nat := k + k / 4

end Sys2Proof.Machine
end

