-- ==== Sys2Proof/Machine/Operands.lean ====
section
/-! DEFINITION. The implicit operand of a command (spec rules R45, R80): the input string, walked in rising index order. Every
function takes the reads of one site, `Nat → Byte`, so that it is the pseudocode's `IBUF[i]`. -/

namespace Sys2Proof.Machine

/-- `nonsep(S)` (R9, R80): the indices of `S[0 .. len-1]` that hold no separator, in rising order. -/
def nonsep (S : Nat → Byte) (len : Nat) : List Nat := (List.range len).filter (fun i => !isSep (S i))

/-- The loop of DEC and DECS over the data characters (R81, R82): the first character that is not in the alphabet stops it
with its index and byte; else every symbol is unpacked. `xs` are the indices of the characters from symbol `i` on. -/
def unpackFrom (S : Nat → Byte) (nb : Nat) : (xs : List Nat) → (i : Nat) → (W : List Byte) →
    Except (Nat × Byte) (List Byte)
  | [], _, W => .ok W
  | x :: xs, i, W =>
    if valid (S x) then unpackFrom S nb xs (i + 1) (unpack W nb i (sym2val (S x)))
    else .error (x, S x)

/-- The data characters at the indices `xs` as bytes: cleared first (R38), then every symbol unpacked (R81, R82). -/
def unpackAll (S : Nat → Byte) (xs : List Nat) : Except (Nat × Byte) (List Byte) :=
  unpackFrom S (nbytes xs.length) xs 0 (List.replicate (nbytes xs.length) 0)

end Sys2Proof.Machine
end

