-- ==== Sys2Proof/Machine/DecodeCmd.lean ====
section
/-! DEFINITION. The decode commands DEC and DECS (spec rules R80 to R84). -/

namespace Sys2Proof.Machine

/-- The end of DEC and DECS (R81, R82): the data characters at `xs` are unpacked and all but the last `cut` bytes delivered,
or the first character outside the alphabet faults (R95). -/
def State.decodeData (s : State) (xs : List Nat) (cut : Nat) : State :=
  match unpackAll (s.readIbuf .data) xs with
  | .error (i, c) => s.raiseChr i c
  | .ok W => s.deliver (Memory.ofBytes (W.take (nbytes xs.length - cut))) (nbytes xs.length - cut)

/-- `DEC` (R81), the checks in the order of R98. -/
def execDec (s : State) : Host.Outcome State Fault Refusal :=
  if !s.inValid then .next (s.raise .nil)
  else
    match nonsep (s.readIbuf .scan) s.ilen with
    | [] => .next (s.raise .pad)
    | x :: xs =>
      match padDec (s.readIbuf .digit x) with
      | none => .next (s.raise .pad)
      | some p =>
        if xs.length % 8 ≠ 0 then .next ((s.setPad p).raise .len)
        else if xs.length = 0 ∧ p > 0 then .next ((s.setPad p).raise .len)
        else .next ((s.setPad p).decodeData xs p)

/-- `DECS` (R82). -/
def execDecs (s : State) : Host.Outcome State Fault Refusal :=
  if !s.inValid then .next (s.raise .nil)
  else
    let xs := nonsep (s.readIbuf .scan) s.ilen
    if xs.length % 4 ≠ 0 then .next (s.raise .len)
    else .next (s.decodeData xs 0)

end Sys2Proof.Machine
end

