-- ==== Sys2Proof/Machine/Encode.lean ====
section
/-! DEFINITION. The encode commands ENC and ENCS (spec rules R75 to R78). -/

namespace Sys2Proof.Machine

/-- The symbol loop of R76 and R77 for the symbols `0 .. N-1`: each is packed and written at its position, and a separator
before each symbol whose index is a positive multiple of 4. `B k` are the payload reads of symbol `k`. -/
def writeSymbols (B : Nat → Nat → Byte) (L : Nat) (pos : Nat → Nat) : (N : Nat) → Memory → Memory
  | 0, m => m
  | k + 1, m =>
    let m := writeSymbols B L pos k m
    let m := if 0 < k ∧ k % 4 = 0 then m.write (pos k - 1) sep else m
    m.write (pos k) (val2sym (packSym (B k) L k))

/-- `need` of R76: the output length of ENC for `N` symbols. -/
def needN (N : Nat) : Nat := if N = 0 then 2 else 1 + 5 * N / 4

/-- `need` of R77: the output length of ENCS for `N` symbols. -/
def needS (N : Nat) : Nat := if N = 0 then 0 else 5 * N / 4 - 1

/-- The reads of the payload for symbol `k`. -/
def State.payload (s : State) (k : Nat) : Nat → Byte := s.readIbuf (.symbol k)

/-- What ENC writes to `OBUF` (R76): the padding digit, a separator, the symbols. -/
def State.encText (s : State) : Memory :=
  writeSymbols s.payload s.ilen posN (nsym (s.ilen + padCalc s.ilen))
    (Memory.write (Memory.write [] 0 (padEnc (padCalc s.ilen))) 1 sep)

/-- What ENCS writes to `OBUF` (R77). -/
def State.encsText (s : State) : Memory := writeSymbols s.payload s.ilen posS (nsym s.ilen) []

/-- `ENC` (R76). -/
def execEnc (s : State) : Host.Outcome State Fault Refusal :=
  if !s.inValid then .next (s.raise .nil)
  else
    let p := padCalc s.ilen
    let need := needN (nsym (s.ilen + p))
    if need > s.obufMax then .next ((s.setPad p).raise .cap)
    else .next ((s.setPad p).deliver s.encText need)

/-- `ENCS` (R77). -/
def execEncs (s : State) : Host.Outcome State Fault Refusal :=
  if !s.inValid then .next (s.raise .nil)
  else if s.ilen % 5 ≠ 0 then .next (s.raise .len)
  else
    let need := needS (nsym s.ilen)
    if need > s.obufMax then .next (s.raise .cap)
    else .next (s.deliver s.encsText need)

end Sys2Proof.Machine
end

