-- ==== Sys2Proof/Machine/Reserved.lean ====
section
/-! DEFINITION. The reserved opcode (spec rules R44, R103). -/

namespace Sys2Proof.Machine

/-- Opcode 0 (R103): `fault E_ILL`; `IN_VALID` is not read. -/
def execRsvd (s : State) : Host.Outcome State Fault Refusal := .next (s.raise .ill)

end Sys2Proof.Machine
end

