-- ==== Sys2Proof/Machine/Validate.lean ====
section
/-! DEFINITION. The format validator: CHKS, CHKA and CHKW (spec rules R85 to R90). -/

namespace Sys2Proof.Machine

/-- The pseudocode of R86 after its first line, on `S[0 .. len-1]`. -/
def strictCheck (S : Nat → Byte) (len : Nat) : Bool :=
  if len = 0 then true
  else if len % 5 ≠ 4 then false
  else (List.range len).all (fun i => if i % 5 = 4 then isSep (S i) else valid (S i))

/-- The pseudocode of R87 after its first line: the answer, and the padding when the padding digit was valid. `S` gives the
reads of each site. -/
def acceptCheck (S : Config.ReadSite → Nat → Byte) (len : Nat) : Bool × Option Nat :=
  match nonsep (S .scan) len with
  | [] => (false, none)
  | x :: xs =>
    match padDec (S .digit x) with
    | none => (false, none)
    | some p =>
      (if xs.all (fun y => valid (S .check y)) then
        if xs.length = 0 then decide (p = 0)
        else if xs.length % 8 ≠ 0 then false
        else if p = 0 then true
        else endChk p (fun t => sym2val (S .ending (xs.getD (xs.length - 8 + t) 0)))
      else false, some p)

/-- The lines of R88 after `a` is known to be 1, on `S[0 .. len-1]`. -/
def cadenceCheck (S : Nat → Byte) (len : Nat) : Bool :=
  if len < 2 then false
  else if isSep (S 0) then false
  else if !isSep (S 1) then false
  else if len = 2 then true
  else if len % 5 ≠ 1 then false
  else (List.range len).all (fun i => decide (i < 2) || (decide (i % 5 = 1) == isSep (S i)))

/-- `PAD <- p` when the padding digit was valid (R20, R87). -/
def State.notePad (p : Option Nat) (s : State) : State :=
  match p with
  | none => s
  | some p => s.setPad p

/-- `CHKS` (R86). -/
def execChks (s : State) : Host.Outcome State Fault Refusal :=
  if !s.inValid then .next (s.answer false)
  else .next (s.answer (strictCheck (s.readIbuf .cadence) s.ilen))

/-- `CHKA` (R87). -/
def execChka (s : State) : Host.Outcome State Fault Refusal :=
  if !s.inValid then .next (s.answer false)
  else
    let r := acceptCheck s.readIbuf s.ilen
    .next ((s.notePad r.2).answer r.1)

/-- `CHKW` (R88): the pseudocode of R87 first, which also writes `PAD`, then the cadence. -/
def execChkw (s : State) : Host.Outcome State Fault Refusal :=
  if !s.inValid then .next (s.answer false)
  else
    let r := acceptCheck s.readIbuf s.ilen
    .next ((s.notePad r.2).answer (r.1 && cadenceCheck (s.readIbuf .cadence) s.ilen))

end Sys2Proof.Machine
end

