-- ==== Sys2Proof/Machine/Dispatch.lean ====
section
/-! DEFINITION. The meaning of each command: one arm per row of the opcode map (spec rule R43). -/

namespace Sys2Proof.Machine

def exec (i : Instr) (s : State) : Host.Outcome State Fault Refusal :=
  match i with
  | .rsvd => Sys2Proof.Machine.execRsvd s
  | .enc => Sys2Proof.Machine.execEnc s
  | .encs => Sys2Proof.Machine.execEncs s
  | .dec => Sys2Proof.Machine.execDec s
  | .decs => Sys2Proof.Machine.execDecs s
  | .chkw => Sys2Proof.Machine.execChkw s
  | .chka => Sys2Proof.Machine.execChka s
  | .chks => Sys2Proof.Machine.execChks s

end Sys2Proof.Machine
end

