-- ==== Sys2Proof/Machine/Flags.lean ====
section
/-! DEFINITION. The flags of the block: the fields of `STATUS` as numbers (spec rules R16, R23, R48). There are no arithmetic
condition codes (R23). -/

namespace Sys2Proof.Machine

/-- The number of an error code (R48). -/
def ErrCode.code : ErrCode → BitVec 3
  | .ok => 0
  | .nil => 1
  | .len => 2
  | .pad => 3
  | .chr => 4
  | .pcons => 5
  | .cap => 6
  | .ill => 7

/-- `STATUS[6:0]` from its fields: `ERR` in 6:4, `IN_VALID` in 3, `RESULT` in 2, `DONE` in 1, `BUSY` in 0 (R16). -/
def packStatus (err : BitVec 3) (inValid result done busy : Bool) : BitVec 7 :=
  err ++ BitVec.ofBool inValid ++ BitVec.ofBool result ++ BitVec.ofBool done ++ BitVec.ofBool busy

/-- `STATUS` as the state holds it. -/
def State.status (s : State) : BitVec 7 := packStatus s.err.code s.inValid s.result s.done s.busy

/-- The optional wire that shows `DONE` as a level (R101). It adds no state. -/
def State.doneWire (s : State) : Bool := s.done

end Sys2Proof.Machine
end

