-- ==== Sys2Proof/Machine/HostPort.lean ====
section
/-! DEFINITION. The host port: the register map and what host reads, host writes and the reset input do (spec rules R12 to R22, R36,
R47, R105, R107, R110, R112, R113, R118). -/

namespace Sys2Proof.Machine

/-! ## The register map (R12) -/

/-- The register numbers (R12). -/
def hostRegNumber : HostReg → Nat
  | .cmd => 0
  | .ctrl => 1
  | .ilen => 2
  | .status => 3
  | .olen => 4
  | .epos => 5
  | .echar => 6
  | .pad => 7

/-- The register widths (R12), for a given `LENW`. -/
def hostRegWidth (lenw : Nat) : HostReg → Nat
  | .cmd => 3
  | .ctrl => 2
  | .ilen => lenw
  | .status => 7
  | .olen => lenw
  | .epos => lenw
  | .echar => 8
  | .pad => 3

/-- The capacity of each buffer (R7, R21, R22). -/
def State.bufMax (s : State) : Buffer → Nat
  | .ibuf => s.ibufMax
  | .obuf => s.obufMax

/-! ## Host writes -/

/-- A write of `CTRL` while `BUSY = 0` (R14): bit 1 `INVAL` acts first, bit 0 `START` second; the other bits are ignored. -/
def State.writeCtrl (v : Nat) (s : State) : State :=
  let s := if v.testBit 1 then s.clearInput else s
  if v.testBit 0 then s.acceptStart else s

/-- A host write of a register word. While `BUSY = 1` it has no effect (R112); a write of a read-only register never has
(R12, R112). -/
def State.hostWriteReg (r : HostReg) (v : Nat) (s : State) : State :=
  if s.busy then s
  else
    match r with
    | .cmd => s.setCmd (commandOfWord v)
    | .ctrl => s.writeCtrl v
    | .ilen => s.setIlen v
    | .status => s
    | .olen => s
    | .epos => s
    | .echar => s
    | .pad => s

/-- A host write of one byte of a buffer. While `BUSY = 1` it has no effect, and a write of `OBUF` never has (R21, R112). -/
def State.hostWriteCell (b : Buffer) (i : Nat) (v : Byte) (s : State) : State :=
  match b with
  | .obuf => s
  | .ibuf => if s.busy then s else { s with ibuf := s.ibuf.write i v }

/-! ## Host reads -/

/-- The free value of a result register read while `BUSY = 1`, as wide as the register (R113, log 6). -/
def State.unspecWord (r : HostReg) (s : State) : Nat :=
  Config.unspecReg s.draws (hostRegNumber r) % 2 ^ hostRegWidth s.lenw r

/-- `STATUS` as the host reads it while `BUSY = 1`: `BUSY = 1`, `DONE = 0`, the true `IN_VALID`, free `RESULT` and `ERR` (R113). -/
def State.statusWhileBusy (s : State) : BitVec 7 :=
  packStatus (BitVec.ofNat 3 (Config.unspecReg s.draws (hostRegNumber .status) >>> 4)) s.inValid
    ((Config.unspecReg s.draws (hostRegNumber .status)).testBit 2) false true

/-- What a host read of a register returns (R12, R14, R113): `CTRL` reads 0, `CMD` and `ILEN` their values, and the results
their values once `BUSY = 0`. -/
def State.hostReadReg (r : HostReg) (s : State) : Nat :=
  match r with
  | .cmd => s.cmd.toNat
  | .ctrl => 0
  | .ilen => s.ilen
  | .status => if s.busy then s.statusWhileBusy.toNat else s.status.toNat
  | .olen => if s.busy then s.unspecWord .olen else s.olen
  | .epos => if s.busy then s.unspecWord .epos else s.epos
  | .echar => if s.busy then s.unspecWord .echar else s.echar.toNat
  | .pad => if s.busy then s.unspecWord .pad else s.pad.toNat

/-- What a host read of one byte of a buffer returns (R21, R22, R113): a byte of `IBUF` its true value, a byte of `OBUF` the
value it holds once `BUSY = 0`, and a free byte where the spec fixes none: drawn anew after an accepted `START`, at each read made
while `BUSY = 1` and after the end of a command (log 2). -/
def State.hostReadCell (b : Buffer) (i : Nat) (s : State) : Byte :=
  match b with
  | .ibuf => s.readIbuf .hostPort i
  | .obuf =>
    match if s.busy then none else s.obuf.lookup i with
    | some v => v
    | none => Config.unspecObuf s.draws i

/-- What a host read leaves: reads have no side effect on the block (R36); the host has seen the value, and a read made while
`BUSY = 1` moves the draw counter on, since such reads need not agree with one another (R36, R113). -/
def State.observe (o : Observation) (s : State) : State :=
  { s with seen := s.seen ++ [o], draws := if s.busy then s.draws + 1 else s.draws }

/-! ## Host actions -/

/-- The cells `0 .. n-1` of `OBUF`, as the host reads them, written to `IBUF` (`MOVO`, R47). -/
def State.copyOutput : (n : Nat) → State → State
  | 0, s => s
  | n + 1, s => (s.copyOutput n).hostWriteCell .ibuf n (s.hostReadCell .obuf n)

/-- `MOVO` (R47): read `OLEN`, copy that many bytes, write that length to `ILEN`. While `BUSY = 1` the writes are ignored (R112) and
the reads are drawn anew (R113). -/
def State.moveOutput (s : State) : Host.Outcome State Fault Refusal :=
  if s.busy then .next { s with draws := s.draws + 1 }
  else if s.olen > s.ibufMax then .fault (.noSuchCell .ibuf s.ibufMax)
  else .next ((s.copyOutput s.olen).hostWriteReg .ilen s.olen)

/-- One action of the host (R47, R118). An access to a cell the buffer does not have faults (log 5). -/
def hostAct (a : HostAction) (s : State) : Host.Outcome State Fault Refusal :=
  match a with
  | .writeReg r v => .next (s.hostWriteReg r v)
  | .writeCell b i v => if i < s.bufMax b then .next (s.hostWriteCell b i v) else .fault (.noSuchCell b i)
  | .readReg r => .next (s.observe (.reg r (s.hostReadReg r)))
  | .readCell b i =>
    if i < s.bufMax b then .next (s.observe (.cell b i (s.hostReadCell b i))) else .fault (.noSuchCell b i)
  | .movo => s.moveOutput
  | .reset => .next s.resetInput

/-! ## The host sequences of R47, as turns -/

/-- Writes of the bytes `bs` to `IBUF` from index `i` on. -/
def loadFrom : Nat → List Byte → List Move
  | _, [] => []
  | i, b :: bs => .host (.writeCell .ibuf i b) :: loadFrom (i + 1) bs

/-- `LDB b0 b1 ...` (R47): write the bytes to `IBUF[0..]`, then their count to `ILEN`. -/
def ldb (bs : List Byte) : List Move := loadFrom 0 bs ++ [.host (.writeReg .ilen bs.length)]

/-- The one byte of a character (R9, R50): its code. DESIGN CHOICE (log 12): a code above `0xFF` fits no byte and the spec is
silent on it, so the byte is free there (safe); a code `0x80..0xFF`, which is no ASCII, is loaded as the byte of that number (unsafe). -/
def charCode (c : Char) : Byte :=
  if c.toNat ≤ 0xFF then BitVec.ofNat 8 c.toNat else Config.wideCharCode c.toNat

/-- The character codes of a text (R50), one byte each (R9). -/
def codes (text : List Char) : List Byte := text.map charCode

/-- `LDS "text"` (R47). -/
def lds (text : List Char) : List Move := ldb (codes text)

/-- `INVAL` (R47): write `CTRL` with bit 1 set. -/
def inval : List Move := [.host (.writeReg .ctrl 2)]

/-- `RUN <mnemonic>` (R47): write the opcode to `CMD`, write `CTRL` with bit 0 set, wait until `DONE = 1`. -/
def run (i : Instr) : List Move :=
  [.host (.writeReg .cmd (encode i).toNat), .host (.writeReg .ctrl 1), .await]

/-- `MOVO` (R47). -/
def movo : List Move := [.host .movo]

end Sys2Proof.Machine
end

