-- ==== Sys2Proof/Machine/Agents.lean ====
section
/-! DEFINITION. The two agents and whose turn it is (spec rules R8, R40, R111, R118). -/

namespace Sys2Proof.Machine

/-- The core's turn (R111): it has a step exactly when `BUSY = 1`, and the step runs the command whose opcode is in `CMD`. With
`BUSY = 0` "the block is idle and keeps all its state" (R102). -/
def coreTurn (s : State) : Host.Outcome State Fault Refusal :=
  if s.busy then exec (decode s.cmd) s else .next s

/-- The state once its first turn is taken off the list. -/
def State.popMove (s : State) : State := { s with moves := s.moves.tail }

/-- One turn (log 1). With no turn listed the core has it. A host that waits sees `DONE = 1` and goes on, or leaves the turn
to the core and keeps waiting (R47, R118). -/
def turn (s : State) : Host.Outcome State Fault Refusal :=
  match s.moves with
  | [] => coreTurn s
  | .core :: _ => coreTurn s.popMove
  | .host a :: _ => hostAct a s.popMove
  | .await :: _ => if s.done then .next s.popMove else coreTurn s

end Sys2Proof.Machine
end

