-- ==== Sys2Proof/Machine/Step.lean ====
section
/-! DEFINITION. One step of the machine: one turn of one of its two agents (spec rules R8, R111). -/

namespace Sys2Proof.Machine

/-- One step (R8, R40): the turn of whichever agent is next. -/
def step (s : State) : Host.Outcome State Fault Refusal := turn s

/-- `s` with the command word `w` started: in `CMD` (R12, R13), its `START` accepted (R110), and the next turn the core's, so
that the very next step runs it (R111). Nothing else changes. It stands for the host's writes of `CMD` and `CTRL` (log 7). -/
def State.withFetchWord (s : State) (nbits w : Nat) : State :=
  { (s.setCmd (commandOfWord (w % 2 ^ nbits))).acceptStart with moves := .core :: s.moves }

end Sys2Proof.Machine
end

