-- ==== Sys2Proof/Forms.lean ====
section
/-! DEFINITION. The two string forms as grammars, and the bit streams, in the terms claims use (spec rules R9, R34, R54, R55).
They are written apart from the commands, so that a claim can compare the two. -/

namespace Sys2Proof.Machine

/-- Stream bit `n` of a byte sequence: bit `7 - t` of byte `j` for `n = 8j + t` (R9, R34). -/
def streamBit (B : Nat → Byte) (n : Nat) : Bool := (B (n / 8)).getLsbD (7 - n % 8)

/-- Stream bit `n` of a symbol sequence: symbol `k` occupies the bits `5k .. 5k+4`, its most significant bit first (R9, R34). -/
def symbolBit (V : Nat → SymVal) (n : Nat) : Bool := (V (n / 5)).getLsbD (4 - n % 5)

/-- `block ::= a a a a` (R54, R55). -/
def isBlock (b : List Byte) : Bool := b.length == 4 && b.all valid

/-- `block ( '-' block )*`, and the empty string for no block (R54, R55). -/
def joinBlocks : List (List Byte) → List Byte
  | [] => []
  | [b] => b
  | b :: c :: bs => b ++ sep :: joinBlocks (c :: bs)

/-- `strict` (R55). -/
def StrictForm (text : List Byte) : Prop :=
  ∃ bs : List (List Byte), (∀ b ∈ bs, isBlock b = true) ∧ text = joinBlocks bs

/-- The values of the last eight of the symbols `syms` (R72). -/
def lastEight (syms : List Byte) (t : Nat) : SymVal := sym2val (syms.getD (syms.length - 8 + t) 0)

/-- `normal` with its two further conditions (R54): the number of blocks is even and the padding-ending check holds; without a
block the form is exactly `"0-"`. -/
def NormalForm (text : List Byte) : Prop :=
  ∃ (d : Byte) (p : Nat) (bs : List (List Byte)),
    padDec d = some p ∧ (∀ b ∈ bs, isBlock b = true) ∧ bs.length % 2 = 0 ∧ (bs = [] → p = 0)
      ∧ (bs ≠ [] → endChk p (lastEight bs.flatten) = true) ∧ text = d :: sep :: joinBlocks bs

/-- A text after separator stripping (R9, R80). -/
def strip (text : List Byte) : List Byte := text.filter (fun c => !isSep c)

/-- What R87 asks of a text after separator stripping: a padding digit, then alphabet symbols only, none of them with padding 0,
or a multiple of eight of them with an ending the padding allows. -/
def Acceptable (text : List Byte) : Prop :=
  ∃ (d : Byte) (p : Nat) (rest : List Byte),
    strip text = d :: rest ∧ padDec d = some p ∧ rest.all valid = true ∧ rest.length % 8 = 0
      ∧ (rest = [] → p = 0) ∧ (rest ≠ [] → endChk p (lastEight rest) = true)

end Sys2Proof.Machine
end

