-- ==== Sys2Proof/Safety.lean ====
section
/-! DEFINITION. What claims about the machine are stated in: the state a started command runs in, what it means that the input or
the output is a given byte sequence, and the invariant of the machine. -/

namespace Sys2Proof.Machine

/-- The state an accepted `START` leaves (R75, R110): busy, and every result cleared. -/
abbrev State.started (s : State) : Prop :=
  s.busy = true ∧ s.done = false ∧ s.result = false ∧ s.err = .ok ∧ s.olen = 0 ∧ s.epos = 0 ∧ s.echar = 0 ∧ s.pad = 0

/-- The input is present and is the byte sequence `bs`, every byte of it written (R15, R56, R115). -/
abbrev State.holds (s : State) (bs : List Byte) : Prop :=
  s.inValid = true ∧ s.ilen = bs.length ∧ ∀ i < bs.length, s.ibuf.lookup i = bs[i]?

/-- The output is the byte sequence `bs` (R17, R22, R56). -/
abbrev State.delivers (s : State) (bs : List Byte) : Prop :=
  s.olen = bs.length ∧ ∀ i < bs.length, s.obuf.lookup i = bs[i]?

/-- No cell of `OBUF` holds a value the spec fixes (R22, R96). -/
abbrev State.outputUnspec (s : State) : Prop := ∀ i, s.obuf.lookup i = none

/-- The command ended (R75, R111). -/
abbrev State.ended (s : State) : Prop := s.busy = false ∧ s.done = true

/-- The command ended in `fault e` (R96): `EPOS`, `ECHAR` and `PAD` as given, no output, no result. -/
abbrev State.faulted (t : State) (e : ErrCode) (pos : Nat) (c : Byte) (p : Nat) : Prop :=
  t.ended ∧ t.err = e ∧ t.olen = 0 ∧ t.result = false ∧ t.epos = pos ∧ t.echar = c ∧ t.pad.toNat = p ∧ t.outputUnspec

/-- An encode or decode command ended without a fault, with `n` bytes of output and padding `p` (R17, R20, R22). -/
abbrev State.succeeded (t : State) (n p : Nat) : Prop :=
  t.ended ∧ t.err = .ok ∧ t.olen = n ∧ t.result = false ∧ t.epos = 0 ∧ t.echar = 0 ∧ t.pad.toNat = p

/-- A predicate that started in `s` ended with the answer `b` and padding `p` (R85): no fault, no output, `OBUF` not written. -/
abbrev State.answered (t s : State) (b : Bool) (p : Nat) : Prop :=
  t.ended ∧ t.err = .ok ∧ t.olen = 0 ∧ t.result = b ∧ t.epos = 0 ∧ t.echar = 0 ∧ t.pad.toNat = p ∧ t.obuf = s.obuf

/-- What no command changes (R13, R15, R21, R75): the command word, the input, the hardware parameter and the host's side. -/
abbrev State.keepsInput (s t : State) : Prop :=
  t.cmd = s.cmd ∧ t.ilen = s.ilen ∧ t.inValid = s.inValid ∧ t.ibuf = s.ibuf ∧ t.lenw = s.lenw ∧ t.moves = s.moves ∧ t.seen = s.seen

/-- The invariant of the machine: what the rules promise of every state, said once. -/
structure State.Inv (s : State) : Prop where
  /-- `LENW >= 4` (R7) -/
  lenw_ge : Config.lenwMin ≤ s.lenw
  /-- `IBUF` is in canonical form and lists no cell it does not have (R21) -/
  ibuf_wf : s.ibuf.wf s.ibufMax = true
  /-- `OBUF` is in canonical form and lists no cell it does not have (R22) -/
  obuf_wf : s.obuf.wf s.obufMax = true
  /-- every value of `ILEN` is `0 .. 2^LENW - 1` (R15) -/
  ilen_le : s.ilen ≤ s.ibufMax
  /-- `OLEN <= OBUF_MAX` (R121) -/
  olen_le : s.olen ≤ s.obufMax
  /-- `EPOS` fits its register: an index of `IBUF` (R18, R121), or 0 -/
  epos_lt : s.epos < s.ibufMax
  /-- `EPOS` and `ECHAR` are 0 unless the last command faulted with `E_CHR` (R18, R19) -/
  chr_only : s.err ≠ .chr → s.epos = 0 ∧ s.echar = 0
  /-- the padding is 0 to 4 (R20) -/
  pad_le : s.pad.toNat ≤ 4
  /-- `E_PCONS` is never written (R97) -/
  not_pcons : s.err ≠ .pcons
  /-- `BUSY` and `DONE` are never both 1 (R16) -/
  not_both : ¬ (s.busy = true ∧ s.done = true)
  /-- while `BUSY = 1` the results are as `START` cleared them (R110) -/
  busy_cleared : s.busy = true → s.result = false ∧ s.err = .ok ∧ s.olen = 0 ∧ s.epos = 0 ∧ s.echar = 0 ∧ s.pad = 0
  /-- after a fault there is no output and no result (R17, R22, R96) -/
  fault_empty : s.err ≠ .ok → s.olen = 0 ∧ s.obuf = [] ∧ s.result = false
  /-- a predicate leaves no output (R17) -/
  result_empty : s.result = true → s.olen = 0
  /-- every byte of the output is a value the rules fix (R22) -/
  output_fixed : ∀ i < s.olen, (s.obuf.lookup i).isSome = true

end Sys2Proof.Machine
end

