-- ==== Sys2Proof/Certificates/Slice0/Obligations.lean ====
section
/-! DEFINITION. The statements for the provers, in the order of OBLIGATIONS.json. Each docstring names the rules it formalises. -/

open Sys2Proof Sys2Proof.Machine

/-! ## Command words and steps -/

/-- O1. The opcode map (R43), each word as its column "binary" writes it. -/
def Obligations.CommandWordsReadAsTheOpcodeMap : Prop :=
  decode 0b000#3 = .rsvd ∧ decode 0b001#3 = .enc ∧ decode 0b010#3 = .encs ∧ decode 0b011#3 = .dec ∧
  decode 0b100#3 = .decs ∧ decode 0b101#3 = .chkw ∧ decode 0b110#3 = .chka ∧ decode 0b111#3 = .chks

/-- O2. Decoding an encoded command gives it back, and every word of three bits is the word of its command (R42, R44). -/
def Obligations.DecodeAndEncodeAgree : Prop :=
  (∀ i : Instr, i.wellFormed = true → decode (encode i) = i) ∧ (∀ w : Opcode, encode (decode w) = w)

/-- O3. The core's turn with `BUSY = 1` runs the command whose opcode is in `CMD` (R111). The turn is the core's when no turn is
listed, or when it is listed first and then taken off the list; a host that waits leaves it to the core until `DONE = 1`. The list of
turns is the model's choice, log 1. -/
def Obligations.StepRunsTheCommandInCmd : Prop :=
  ∀ s : State, s.busy = true →
    (s.moves = [] → step s = exec (decode s.cmd) s) ∧
    (∀ ms, s.moves = .core :: ms → step s = exec (decode s.cmd) { s with moves := ms }) ∧
    (∀ ms, s.moves = .await :: ms → s.done = false → step s = exec (decode s.cmd) s)

/-- O4. With `BUSY = 0` the core's turn changes nothing: "the block is idle and keeps all its state" (R102, R106, R111). The list
of turns is the model's choice, log 1. -/
def Obligations.IdleCoreKeepsItsState : Prop :=
  ∀ s : State, s.busy = false → (s.moves = [] → step s = .next s) ∧
    (∀ ms, s.moves = .core :: ms → step s = .next { s with moves := ms })

/-- O5. A started command word is what the very next step runs (R13, R110, R111). How it is placed is the model's choice, log 7. -/
def Obligations.PlacedCommandRunsNext : Prop :=
  ∀ (s : State) (nbits w : Nat),
    step (s.withFetchWord nbits w) =
      exec (decode (BitVec.ofNat 3 (w % 2 ^ nbits))) { (s.setCmd (BitVec.ofNat 3 (w % 2 ^ nbits))).acceptStart with moves := s.moves }

/-- O6. `RUN` (R47, R108): from an idle block, the host's writes of `CMD` and `CTRL`, the core's step and the host's look at `DONE` take
four steps, and leave what the command made of the started state. The list of turns is the model's choice, log 1. -/
def Obligations.RunTakesTheCommandToDone : Prop :=
  ∀ (s : State) (i : Instr) (ms : List Move), s.busy = false → s.moves = run i ++ ms →
    ∃ t, exec i ({ s with moves := .await :: ms }.setCmd (encode i)).acceptStart = .next t ∧ t.done = true ∧
      Host.Core.run Sys2Proof.core 4 s = .next { t with moves := ms }

/-! ## What every command does -/

/-- O7. Every command ends, whatever the state, its input written or not (R75, R111, R116): `BUSY = 0`, `DONE = 1`, a padding of 0 to
4 where it writes one, and the input as it was. -/
def Obligations.EveryCommandEnds : Prop :=
  ∀ (i : Instr) (s : State), ∃ t, exec i s = .next t ∧ t.ended ∧ s.keepsInput t ∧ (t.pad = s.pad ∨ t.pad.toNat ≤ 4)

/-- O8. What each command leaves alone (R75): "A register the pseudocode does not write keeps the value `START` gave it".
That this holds on a state no `START` has prepared is the model's reading, log 10. -/
def Obligations.CommandsKeepWhatTheyDoNotWrite : Prop :=
  ∀ (i : Instr) (s t : State), exec i s = .next t →
    (i ∉ [Instr.chkw, .chka, .chks] → t.result = s.result) ∧
    (i ∈ [Instr.chkw, .chka, .chks] → t.obuf = s.obuf ∧ t.olen = s.olen ∧ t.err = s.err) ∧
    (i ∉ [Instr.dec, .decs] → t.epos = s.epos ∧ t.echar = s.echar) ∧
    (i ∉ [Instr.enc, .dec, .chkw, .chka] → t.pad = s.pad) ∧
    (t.err ≠ .chr → t.epos = s.epos ∧ t.echar = s.echar) ∧
    (∀ a, t.ibuf.lookup a = s.ibuf.lookup a)

/-- O9. A command is a function of `IN_VALID`, `ILEN` and `IBUF[0 .. ILEN-1]` (R75): two started states that agree on them, every
input byte written, end with the same results, whatever else they hold. A byte not written is a free value, log 2. -/
def Obligations.CommandsDependOnTheirInputOnly : Prop :=
  ∀ (i : Instr) (s u t v : State), s.started → u.started → s.lenw = u.lenw → s.inValid = u.inValid → s.ilen = u.ilen →
    (s.inValid = true → ∀ a < s.ilen, (s.ibuf.lookup a).isSome = true ∧ s.ibuf.lookup a = u.ibuf.lookup a) →
    exec i s = .next t → exec i u = .next v →
    t.status = v.status ∧ t.olen = v.olen ∧ t.epos = v.epos ∧ t.echar = v.echar ∧ t.pad = v.pad ∧
      ∀ a < t.olen, (t.obuf.lookup a).isSome = true ∧ t.obuf.lookup a = v.obuf.lookup a

/-- O10. A fault, whichever command takes it, leaves no output and no promise about `OBUF` (R96): `OLEN = 0`, every cell `UNSPEC`,
`RESULT` as before (on a state `START` did not prepare, log 10). -/
def Obligations.FaultLeavesNoOutput : Prop :=
  ∀ (i : Instr) (s t : State), exec i s = .next t → s.err = .ok → t.err ≠ .ok →
    t.ended ∧ t.olen = 0 ∧ t.outputUnspec ∧ t.result = s.result ∧ s.keepsInput t ∧
      (t.err ≠ .chr → t.epos = s.epos ∧ t.echar = s.echar) ∧ (t.err = .chr → t.epos < s.ilen)

/-- O11. No command writes code 5 (R97). -/
def Obligations.PaddingConsistencyCodeIsNeverWritten : Prop :=
  ∀ (i : Instr) (s t : State), exec i s = .next t → t.err = .pcons → s.err = .pcons

/-! ## The commands -/

/-- O12. The reserved command (R103), whatever `IN_VALID` is. -/
def Obligations.ReservedCommandFaultsAtOnce : Prop :=
  ∀ s : State, s.started → ∃ t, exec .rsvd s = .next t ∧ t.faulted .ill 0 0 0

/-- O13. `ENC` (R76): absent input, a text that would not fit, and the normal form cell by cell. A byte of
the input that nothing has written is a free value at each read (R116). -/
def Obligations.EncWritesTheNormalForm : Prop :=
  ∀ s : State, s.started →
    let p := (5 - s.ilen % 5) % 5
    let g := (s.ilen + 4) / 5
    let need := if g = 0 then 2 else 1 + 10 * g
    (s.inValid = false → ∃ t, exec .enc s = .next t ∧ t.faulted .nil 0 0 0) ∧
    (s.inValid = true → need > s.obufMax → ∃ t, exec .enc s = .next t ∧ t.faulted .cap 0 0 p) ∧
    (s.inValid = true → need ≤ s.obufMax → ∃ t, exec .enc s = .next t ∧ t.succeeded need p ∧
      t.obuf.lookup 0 = some (val2sym (BitVec.ofNat 5 p)) ∧
      (∀ k < 8 * g, t.obuf.lookup (2 + k + k / 4) = some (val2sym (packSym (s.readIbuf (.symbol k)) s.ilen k))) ∧
      (∀ i < need, i % 5 = 1 → t.obuf.lookup i = some 0x2D) ∧
      (∀ i, need ≤ i → t.obuf.lookup i = none))

/-- O14. `ENCS` (R77): absent input, a length that is no multiple of 5, a text that would not fit, in this order, and the strict form
cell by cell. -/
def Obligations.EncsWritesTheStrictForm : Prop :=
  ∀ s : State, s.started →
    let g := s.ilen / 5
    let need := if g = 0 then 0 else 10 * g - 1
    (s.inValid = false → ∃ t, exec .encs s = .next t ∧ t.faulted .nil 0 0 0) ∧
    (s.inValid = true → s.ilen % 5 ≠ 0 → ∃ t, exec .encs s = .next t ∧ t.faulted .len 0 0 0) ∧
    (s.inValid = true → s.ilen % 5 = 0 → need > s.obufMax → ∃ t, exec .encs s = .next t ∧ t.faulted .cap 0 0 0) ∧
    (s.inValid = true → s.ilen % 5 = 0 → need ≤ s.obufMax → ∃ t, exec .encs s = .next t ∧ t.succeeded need 0 ∧
      (∀ k < 8 * g, t.obuf.lookup (k + k / 4) = some (val2sym (packSym (s.readIbuf (.symbol k)) s.ilen k))) ∧
      (∀ i < need, i % 5 = 4 → t.obuf.lookup i = some 0x2D) ∧
      (∀ i, need ≤ i → t.obuf.lookup i = none))

/-- O15. `DEC` (R81): the faults in the order of R98, and the bytes bit by bit. `xs` are the indices of the data characters. -/
def Obligations.DecReturnsThePayload : Prop :=
  ∀ s : State, s.started →
    (s.inValid = false → ∃ t, exec .dec s = .next t ∧ t.faulted .nil 0 0 0) ∧
    (s.inValid = true → nonsep (s.readIbuf .scan) s.ilen = [] → ∃ t, exec .dec s = .next t ∧ t.faulted .pad 0 0 0) ∧
    (∀ x xs, s.inValid = true → nonsep (s.readIbuf .scan) s.ilen = x :: xs → padDec (s.readIbuf .digit x) = none →
      ∃ t, exec .dec s = .next t ∧ t.faulted .pad 0 0 0) ∧
    (∀ x xs p, s.inValid = true → nonsep (s.readIbuf .scan) s.ilen = x :: xs → padDec (s.readIbuf .digit x) = some p →
      (xs.length % 8 ≠ 0 ∨ xs.length = 0 ∧ p > 0 → ∃ t, exec .dec s = .next t ∧ t.faulted .len 0 0 p) ∧
      (xs.length % 8 = 0 → ¬ (xs.length = 0 ∧ p > 0) →
        (∀ ys y zs, xs = ys ++ y :: zs → (∀ i ∈ ys, valid (s.readIbuf .data i) = true) → valid (s.readIbuf .data y) = false →
          ∃ t, exec .dec s = .next t ∧ t.faulted .chr y (s.readIbuf .data y) p) ∧
        ((∀ i ∈ xs, valid (s.readIbuf .data i) = true) →
          ∃ t, exec .dec s = .next t ∧ t.succeeded (5 * xs.length / 8 - p) p ∧
            (∀ j < t.olen, ∃ b, t.obuf.lookup j = some b ∧ ∀ u < 8, b.getLsbD (7 - u) =
              symbolBit (fun k => sym2val (s.readIbuf .data (xs.getD k 0))) (8 * j + u)) ∧
            (∀ j, t.olen ≤ j → t.obuf.lookup j = none))))

/-- O16. `DECS` (R82): the faults in the order of R98, and the bytes bit by bit; the bits past the last whole byte are dropped. -/
def Obligations.DecsReturnsThePayload : Prop :=
  ∀ s : State, s.started →
    let xs := nonsep (s.readIbuf .scan) s.ilen
    (s.inValid = false → ∃ t, exec .decs s = .next t ∧ t.faulted .nil 0 0 0) ∧
    (s.inValid = true → xs.length % 4 ≠ 0 → ∃ t, exec .decs s = .next t ∧ t.faulted .len 0 0 0) ∧
    (s.inValid = true → xs.length % 4 = 0 →
      (∀ ys y zs, xs = ys ++ y :: zs → (∀ i ∈ ys, valid (s.readIbuf .data i) = true) → valid (s.readIbuf .data y) = false →
        ∃ t, exec .decs s = .next t ∧ t.faulted .chr y (s.readIbuf .data y) 0) ∧
      ((∀ i ∈ xs, valid (s.readIbuf .data i) = true) →
        ∃ t, exec .decs s = .next t ∧ t.succeeded (5 * xs.length / 8) 0 ∧
          (∀ j < t.olen, ∃ b, t.obuf.lookup j = some b ∧ ∀ u < 8, b.getLsbD (7 - u) =
            symbolBit (fun k => sym2val (s.readIbuf .data (xs.getD k 0))) (8 * j + u)) ∧
          (∀ j, t.olen ≤ j → t.obuf.lookup j = none)))

/-- O17. `CHKS` (R86): false on absent input, and true exactly on the strings of the grammar `strict` of R55. -/
def Obligations.ChksAcceptsExactlyTheStrictForm : Prop :=
  ∀ s : State, s.started →
    (s.inValid = false → ∃ t, exec .chks s = .next t ∧ t.answered s false 0) ∧
    (∀ text, s.holds text → ∃ t, exec .chks s = .next t ∧ t.answered s t.result 0 ∧ (t.result = true ↔ StrictForm text))

/-- O18. `CHKA` (R87): false on absent input, true exactly on the acceptable strings, and `PAD` the padding of a valid padding
digit. -/
def Obligations.ChkaAcceptsExactlyTheAcceptable : Prop :=
  ∀ s : State, s.started →
    (s.inValid = false → ∃ t, exec .chka s = .next t ∧ t.answered s false 0) ∧
    (∀ text, s.holds text → ∃ t, exec .chka s = .next t ∧
      t.answered s t.result (((strip text).head?.bind padDec).getD 0) ∧ (t.result = true ↔ Acceptable text))

/-- O19. `CHKW` (R88): false on absent input, true exactly on the strings of the grammar `normal` of R54 with its two further
conditions, and `PAD` as in `CHKA`. -/
def Obligations.ChkwAcceptsExactlyTheNormalForm : Prop :=
  ∀ s : State, s.started →
    (s.inValid = false → ∃ t, exec .chkw s = .next t ∧ t.answered s false 0) ∧
    (∀ text, s.holds text → ∃ t, exec .chkw s = .next t ∧
      t.answered s t.result (((strip text).head?.bind padDec).getD 0) ∧ (t.result = true ↔ NormalForm text))

/-- O20. The predicates never fault, on any input, written or not (R85, R99). -/
def Obligations.PredicatesNeverFault : Prop :=
  ∀ s : State, s.started → ∀ i ∈ [Instr.chkw, .chka, .chks], ∃ t, exec i s = .next t ∧ t.answered s t.result t.pad.toNat ∧
    (s.inValid = false → t.result = false)

/-- O21. The capacity fault is for the encoders alone (R104): a decoder's output fits wherever its input does. -/
def Obligations.DecodersNeverRunOutOfRoom : Prop :=
  ∀ (s t : State), s.ilen ≤ s.obufMax → s.err = .ok → ∀ i ∈ [Instr.dec, .decs], exec i s = .next t →
    t.err ≠ .cap ∧ (t.err = .ok → t.olen ≤ t.obufMax)

/-! ## Laws of the codec -/

/-- O22. Round trip: the text `ENC` makes of a payload, moved to the input, `DEC` turns into the payload. The spec marks it as its own
inference in R83, "the empty one included". -/
def Obligations.DecOfEncIsThePayload : Prop :=
  ∀ (s t u : State) (payload text : List Byte), s.started → s.holds payload → exec .enc s = .next t → t.err = .ok →
    t.delivers text → u.started → u.holds text →
    ∃ v, exec .dec u = .next v ∧ v.err = .ok ∧ v.delivers payload ∧ v.pad = t.pad

/-- O23. Round trip of the strict form. The spec marks it as its own inference in R83, "the same for `ENCS` and `DECS`". -/
def Obligations.DecsOfEncsIsThePayload : Prop :=
  ∀ (s t u : State) (payload text : List Byte), s.started → s.holds payload → exec .encs s = .next t → t.err = .ok →
    t.delivers text → u.started → u.holds text →
    ∃ v, exec .decs u = .next v ∧ v.err = .ok ∧ v.delivers payload

/-- O24. Self-validity (R79, "each a consequence of rules R76 and R77"): what `ENC` makes is well-formed and acceptable. -/
def Obligations.EncProducesWellFormedText : Prop :=
  ∀ (s t u : State) (payload text : List Byte), s.started → s.holds payload → exec .enc s = .next t → t.err = .ok →
    t.delivers text → u.started → u.holds text →
    (∃ v, exec .chkw u = .next v ∧ v.result = true ∧ v.pad = t.pad) ∧ (∃ v, exec .chka u = .next v ∧ v.result = true)

/-- O25. Self-validity of the strict form (R79). -/
def Obligations.EncsProducesStrictText : Prop :=
  ∀ (s t u : State) (payload text : List Byte), s.started → s.holds payload → exec .encs s = .next t → t.err = .ok →
    t.delivers text → u.started → u.holds text →
    ∃ v, exec .chks u = .next v ∧ v.result = true

/-- O26. Character set (R57, R79): every byte the encoders deliver is a symbol or the separator, whatever the payload. -/
def Obligations.EncodersProduceOnlySymbolsAndSeparators : Prop :=
  ∀ (s t : State), ∀ i ∈ [Instr.enc, .encs], exec i s = .next t →
    ∀ a < t.olen, ∃ b, t.obuf.lookup a = some b ∧ (valid b = true ∨ b = 0x2D)

/-- O27. "The `ENC` output is the padding digit, a separator, and then exactly the `ENCS` output of the padded payload" (R78,
which the spec marks as its own inference). -/
def Obligations.EncIsDigitSeparatorAndEncs : Prop :=
  ∀ (s u t v : State) (payload : List Byte), s.started → u.started → s.lenw = u.lenw → s.holds payload →
    u.holds (payload ++ List.replicate (padCalc payload.length) 0) → exec .enc s = .next t → t.err = .ok → exec .encs u = .next v →
    v.err = .ok ∧ t.olen = 2 + v.olen ∧ t.obuf.lookup 0 = some (padEnc (padCalc payload.length)) ∧
      t.obuf.lookup 1 = some 0x2D ∧ ∀ i < v.olen, t.obuf.lookup (2 + i) = v.obuf.lookup i

/-- O28. Separators do not matter to the decoders (R80): strings that are equal after separator stripping decode alike. -/
def Obligations.DecodersIgnoreSeparators : Prop :=
  ∀ (s u t v : State) (a b : List Byte), s.started → u.started → s.holds a → u.holds b → strip a = strip b →
    ∀ i ∈ [Instr.dec, .decs], exec i s = .next t → exec i u = .next v →
    t.err = v.err ∧ t.olen = v.olen ∧ t.echar = v.echar ∧ t.pad = v.pad ∧ ∀ j < t.olen, t.obuf.lookup j = v.obuf.lookup j

/-- O29. What a predicate admits, the decoder decodes (R83, R90): `CHKW` true implies `CHKA` true, `CHKA` true implies that `DEC` ends
without a fault, `CHKS` true implies that `DECS` does. The spec marks these as its own inferences in R83 and R90. -/
def Obligations.ValidTextsDecode : Prop :=
  ∀ (s t : State) (text : List Byte), s.started → s.holds text →
    (exec .chkw s = .next t → t.result = true → ∃ v, exec .chka s = .next v ∧ v.result = true) ∧
    (exec .chka s = .next t → t.result = true → ∃ v, exec .dec s = .next v ∧ v.err = .ok ∧ v.pad = t.pad) ∧
    (exec .chks s = .next t → t.result = true → ∃ v, exec .decs s = .next v ∧ v.err = .ok)

/-- O30. "No string satisfies both `CHKS` and `CHKA`", which the spec marks as its own inference in R90. -/
def Obligations.NoTextIsStrictAndAcceptable : Prop :=
  ∀ (s t v : State) (text : List Byte), s.started → s.holds text → exec .chks s = .next t → exec .chka s = .next v →
    ¬ (t.result = true ∧ v.result = true)

/-- O31. Re-encoding what `DEC` makes of an acceptable string gives back its padding digit and its symbols, where the text fits:
"gives back the same symbols and padding digit", which the spec marks as its own inference in R90. -/
def Obligations.ReencodingGivesTheSymbolsBack : Prop :=
  ∀ (s t v u w : State) (text payload : List Byte), s.started → s.holds text → exec .chka s = .next t → t.result = true →
    exec .dec s = .next v → v.delivers payload → u.started → u.holds payload → exec .enc u = .next w → w.err = .ok →
    w.obuf.lookup 0 = (strip text)[0]? ∧ w.pad = t.pad ∧
      ∀ k, k + 1 < (strip text).length → w.obuf.lookup (2 + k + k / 4) = (strip text)[k + 1]?

/-- O32. Minimum lengths. The spec marks them as its own inference in R89, "Minimum lengths that follow". -/
def Obligations.MinimumLengths : Prop :=
  ∀ (s t : State) (text : List Byte), s.started → s.holds text →
    (exec .chka s = .next t → t.result = true → strip text = [0x30] ∨ 9 ≤ (strip text).length) ∧
    (exec .chkw s = .next t → t.result = true → text = [0x30, 0x2D] ∨ ∃ g, 1 ≤ g ∧ text.length = 1 + 10 * g) ∧
    (exec .chks s = .next t → t.result = true → text = [] ∨ ∃ b, 1 ≤ b ∧ text.length = 5 * b - 1)

/-! ## Functional units -/

/-- O33. The alphabet is a bijection between the 32 values and the valid bytes (R61), in the order of R51. -/
def Obligations.AlphabetIsABijection : Prop :=
  (∀ v : SymVal, valid (val2sym v) = true ∧ sym2val (val2sym v) = v) ∧
  (∀ c : Byte, valid c = true → val2sym (sym2val c) = c) ∧
  (List.range 32).map (fun v => val2sym (BitVec.ofNat 5 v)) = codes
    ['0', '1', '2', '3', '4', '5', '6', '7', '8', '9', 'a', 'b', 'c', 'd', 'e', 'f',
     'g', 'h', 'j', 'k', 'm', 'n', 'p', 'q', 'r', 's', 't', 'v', 'w', 'x', 'y', 'z']

/-- O34. `DEC_ROM` (R26): the separator entry, 32 symbols, and zero everywhere else; never both bits (R59). -/
def Obligations.DecRomHoldsTheAlphabetAndNothingElse : Prop :=
  decRom 0x2D = ⟨true, false, 0⟩ ∧
  (∀ c : Byte, isSep c = true ↔ c = 0x2D) ∧
  (∀ c : Byte, valid c = true ↔ ∃ v : SymVal, c = val2sym v) ∧
  (∀ c : Byte, ¬ (isSep c = true ∧ valid c = true)) ∧
  (∀ c : Byte, isSep c = false → valid c = false → decRom c = ⟨false, false, 0⟩)

/-- O35. `PADEND_ROM` (R27): entries for 1 to 4 only, and the mask allows exactly the values whose `lowz` low bits are 0. -/
def Obligations.PadEndRomMaskIsItsLowBits : Prop :=
  (∀ p, (padEndRom p).isSome = true ↔ 1 ≤ p ∧ p ≤ 4) ∧
  (∀ p e, padEndRom p = some e → ∀ v : SymVal, e.allow.getLsbD v.toNat = decide (v.toNat % 2 ^ e.lowz = 0))

/-- O36. `PADCALC` (R62). -/
def Obligations.PaddingCompletesTheLength : Prop :=
  (∀ L, padCalc L = (5 - L % 5) % 5 ∧ padCalc L ≤ 4 ∧ (L + padCalc L) % 5 = 0) ∧
  padCalc 0 = 0 ∧ padCalc 1 = 4 ∧ padCalc 2 = 3 ∧ padCalc 3 = 2 ∧ padCalc 4 = 1 ∧ padCalc 5 = 0

/-- O37. `PADENC` and `PADDEC` (R53, R63, R64): a byte is a padding digit iff it is one of `'0'..'4'`, and then stands for its digit. -/
def Obligations.PaddingDigitsAreZeroToFour : Prop :=
  (∀ p ≤ 4, padEnc p = BitVec.ofNat 8 (0x30 + p)) ∧
  (∀ c : Byte, padDec c = if 0x30 ≤ c.toNat ∧ c.toNat ≤ 0x34 then some (c.toNat - 0x30) else none)

/-- O38. The barrel-shifter form of the packer equals the packer, which the spec marks as its own inference in R66. -/
def Obligations.PackerEqualsItsBarrelForm : Prop :=
  ∀ (B : Nat → Byte) (L k : Nat), packSym B L k = packSymBarrel B L k

/-- O39. The barrel-shifter form of the unpacker equals the unpacker, which the spec marks as its own inference in R69. -/
def Obligations.UnpackerEqualsItsBarrelForm : Prop :=
  ∀ (W : List Byte) (nb i : Nat) (v : SymVal), unpack W nb i v = unpackBarrel W nb i v

/-- O40. "Packer and unpacker are inverses on whole groups", which the spec marks as its own inference in R71. -/
def Obligations.PackerAndUnpackerAreInverse : Prop :=
  (∀ B : List Byte, B.length % 5 = 0 →
    (List.range (nsym B.length)).foldl (fun W k => unpack W B.length k (packSym (fun j => B.getD j 0) B.length k))
      (List.replicate B.length 0) = B) ∧
  (∀ V : List SymVal, V.length % 8 = 0 → ∀ k < V.length,
    packSym (fun j => ((List.range V.length).foldl (fun W k => unpack W (nbytes V.length) k (V.getD k 0))
      (List.replicate (nbytes V.length) 0)).getD j 0) (nbytes V.length) k = V.getD k 0)

/-- O41. The order in which symbols are unpacked does not matter, which the spec marks as its own inference in R38. -/
def Obligations.UnpackingOrderDoesNotMatter : Prop :=
  ∀ (W : List Byte) (nb i k : Nat) (v w : SymVal),
    unpack (unpack W nb i v) nb k w = unpack (unpack W nb k w) nb i v

/-- O42. `ENDCHK` is true iff the low `8p` bits of the 40-bit last group are all zero, which the spec marks as its own inference in
R72 and R73. -/
def Obligations.EndingCheckIsZeroPaddingBits : Prop :=
  ∀ (p : Nat) (T : Nat → SymVal), 1 ≤ p → p ≤ 4 →
    (endChk p T = true ↔ ∀ n, 40 - 8 * p ≤ n → n < 40 → symbolBit T n = false)

/-- O43. The separator cadence (R74): separators are exactly the indices `i` with `i mod 5 = 1` (normal) and `i mod 5 = 4` (strict) of a
text of `g` groups, and every other index but 0 of the normal form is one symbol's. -/
def Obligations.SeparatorsStandAtTheCadence : Prop :=
  ∀ g, 1 ≤ g →
    (∀ i < 1 + 10 * g, i % 5 = 1 ↔ i = 1 ∨ ∃ k < 8 * g, 0 < k ∧ k % 4 = 0 ∧ i = posN k - 1) ∧
    (∀ i < 1 + 10 * g, i ≠ 0 → (i % 5 ≠ 1 ↔ ∃ k < 8 * g, i = posN k)) ∧
    (∀ i < 10 * g - 1, i % 5 = 4 ↔ ∃ k < 8 * g, 0 < k ∧ k % 4 = 0 ∧ i = posS k - 1) ∧
    (∀ i < 10 * g - 1, i % 5 ≠ 4 ↔ ∃ k < 8 * g, i = posS k) ∧
    (∀ j k, j < k → posN j < posN k ∧ posS j < posS k)

/-- O44. `NSYM` and `NBYTES` (R67, R70); of the last of `8m + 4` symbols the low 4 bits belong to no byte. -/
def Obligations.SymbolAndByteCounts : Prop :=
  (∀ M, 8 * M ≤ 5 * nsym M ∧ 5 * nsym M < 8 * M + 5) ∧ (∀ M, M % 5 = 0 → nsym M = 8 * M / 5 ∧ nsym M % 8 = 0) ∧
  (∀ n, nbytes n = 5 * n / 8) ∧ (∀ m, nbytes (8 * m) = 5 * m ∧ nbytes (8 * m + 4) = 5 * m + 2) ∧
  (∀ m W v w, v >>> 4 = w >>> 4 → unpack W (nbytes (8 * m + 4)) (8 * m + 3) v = unpack W (nbytes (8 * m + 4)) (8 * m + 3) w)

/-! ## The host port and the machine -/

/-- O45. The state after reset (R29, X1 of 95_test_vectors.md): every register reads 0 and no cell of either buffer holds a value. -/
def Obligations.ResetClearsEveryRegister : Prop :=
  (∀ r, State.reset.hostReadReg r = 0) ∧ State.reset.busy = false ∧ State.reset.done = false ∧ State.reset.inValid = false ∧
  (∀ a, State.reset.ibuf.lookup a = none ∧ State.reset.obuf.lookup a = none)

/-- O46. The reset input (R105, R107), whatever ran: every register as after reset, both buffers `UNSPEC`. That it
leaves `LENW`, the turns and what the host has seen is the model's choice, log 11. -/
def Obligations.ResetInputAbandonsTheCommand : Prop :=
  ∀ s : State, ∃ t, hostAct .reset s = .next t ∧ (∀ r, t.hostReadReg r = 0) ∧ t.busy = false ∧ t.done = false ∧ t.inValid = false ∧
    (∀ a, t.ibuf.lookup a = none ∧ t.obuf.lookup a = none) ∧ t.lenw = s.lenw ∧ t.moves = s.moves ∧ t.seen = s.seen

/-- O47. A host write of `CTRL` (R14, R110): ignored while `BUSY = 1`; else bit 1 makes the input absent, then bit 0 starts the command
and clears the results; a bit that is 0 does nothing; `CTRL` reads 0; the operands and `OBUF` stay. -/
def Obligations.CtrlWriteStartsAndInvalidates : Prop :=
  ∀ (s : State) (v : Nat), s.hostReadReg .ctrl = 0 ∧
    (s.busy = true → hostAct (.writeReg .ctrl v) s = .next s) ∧
    (s.busy = false → ∃ t, hostAct (.writeReg .ctrl v) s = .next t ∧
      t.inValid = (!v.testBit 1 && s.inValid) ∧
      (v.testBit 0 = true → t.started) ∧
      (v.testBit 0 = false → t = { s with inValid := t.inValid }) ∧
      t.cmd = s.cmd ∧ t.ilen = s.ilen ∧ t.ibuf = s.ibuf ∧ t.obuf = s.obuf)

/-- O48. A host write of `ILEN` while `BUSY = 0`, with any value, declares the input present (R15); bits above the width are ignored
(R12). A write of `CMD` sets the opcode (R13). Nothing else changes, the model's own fields (logs 1 to 3) included. -/
def Obligations.IlenWriteDeclaresTheInput : Prop :=
  ∀ (s : State) (v : Nat), s.busy = false →
    hostAct (.writeReg .ilen v) s = .next { s with ilen := v % 2 ^ s.lenw, inValid := true } ∧
    hostAct (.writeReg .cmd v) s = .next { s with cmd := BitVec.ofNat 3 (v % 8) }

/-- O49. Host writes while `BUSY = 1` are ignored, and host writes of read-only registers and of `OBUF` always are (R112). -/
def Obligations.LockedWritesAreIgnored : Prop :=
  ∀ s : State,
    (s.busy = true → (∀ r v, hostAct (.writeReg r v) s = .next s) ∧
      (∀ a b, a < s.ibufMax → hostAct (.writeCell .ibuf a b) s = .next s)) ∧
    (∀ v, ∀ r ∈ [HostReg.status, .olen, .epos, .echar, .pad], hostAct (.writeReg r v) s = .next s) ∧
    (∀ a b, a < s.obufMax → hostAct (.writeCell .obuf a b) s = .next s)

/-- O50. A host write of a byte of `IBUF` while `BUSY = 0` (R21, R36): that cell holds the byte, every other cell of both buffers and
every register is as before, and so are the model's own fields (logs 1 to 3). That a cell which holds no fixed value reads as before
too is the model's choice, log 2. -/
def Obligations.CellWriteChangesOneCell : Prop :=
  ∀ (s : State) (a : Nat) (b : Byte), s.busy = false → a < s.ibufMax →
    ∃ t, hostAct (.writeCell .ibuf a b) s = .next t ∧ t.hostReadCell .ibuf a = b ∧
      (∀ x, x ≠ a → t.hostReadCell .ibuf x = s.hostReadCell .ibuf x) ∧ (∀ x, t.hostReadCell .obuf x = s.hostReadCell .obuf x) ∧
      (∀ r, t.hostReadReg r = s.hostReadReg r) ∧ t = { s with ibuf := t.ibuf }

/-- O51. Reads have no side effect on the block and, while `BUSY = 0`, are idempotent (R36). Keeping what the host has read is the
model's choice, log 1, and counting the draws log 2. -/
def Obligations.ReadsChangeNothing : Prop :=
  ∀ (s : State) (r : HostReg) (b : Buffer) (a : Nat), a < s.bufMax b →
    ∃ t u, hostAct (.readReg r) s = .next t ∧ hostAct (.readCell b a) s = .next u ∧
      (∀ w ∈ [t, u], w = { s with seen := w.seen, draws := w.draws } ∧
        (s.busy = false → (∀ r', w.hostReadReg r' = s.hostReadReg r') ∧ ∀ b' a', w.hostReadCell b' a' = s.hostReadCell b' a')) ∧
      t.seen = s.seen ++ [.reg r (s.hostReadReg r)] ∧ u.seen = s.seen ++ [.cell b a (s.hostReadCell b a)]

/-- O52. What a host reads while `BUSY = 1` (R113): `STATUS` shows `BUSY = 1`, `DONE = 0` and the true `IN_VALID`; `CMD`, `ILEN` and the
written bytes of `IBUF` read their true values. The other reads are free values, log 6. -/
def Obligations.ReadsWhileBusyShowTheOperands : Prop :=
  ∀ s : State, s.busy = true →
    (s.hostReadReg .status).testBit 0 = true ∧ (s.hostReadReg .status).testBit 1 = false ∧
    (s.hostReadReg .status).testBit 3 = s.inValid ∧ s.hostReadReg .cmd = s.cmd.toNat ∧ s.hostReadReg .ilen = s.ilen ∧
    (∀ a b, s.ibuf.lookup a = some b → s.hostReadCell .ibuf a = b)

/-- O53. `STATUS` as a number while `BUSY = 0` (R16): `2*DONE + 4*RESULT + 8*IN_VALID + 16*ERR`, and the number of each code of
`ERR` (R48). -/
def Obligations.StatusWordHasItsFields : Prop :=
  (∀ s : State, s.busy = false →
    s.hostReadReg .status = 2 * s.done.toNat + 4 * s.result.toNat + 8 * s.inValid.toNat + 16 * s.err.code.toNat) ∧
  ErrCode.code .ok = 0 ∧ ErrCode.code .nil = 1 ∧ ErrCode.code .len = 2 ∧ ErrCode.code .pad = 3 ∧
  ErrCode.code .chr = 4 ∧ ErrCode.code .pcons = 5 ∧ ErrCode.code .cap = 6 ∧ ErrCode.code .ill = 7

/-- O54. A register reads no wider than R12 says, in every state that meets the invariant. While `BUSY = 1` a result register reads a
free value, which the model cuts to the register's width: the model's choice, log 6. -/
def Obligations.RegisterReadsFitTheirWidth : Prop :=
  ∀ (s : State) (r : HostReg), s.Inv → s.hostReadReg r < 2 ^ hostRegWidth s.lenw r

/-- O55. Reset meets the invariant. -/
def Obligations.ResetMeetsTheInvariant : Prop := State.reset.Inv

/-- O56. Every step keeps the invariant: buffers in canonical form and inside their capacity, lengths and positions in range, `PAD` 0 to
4, code 5 never, `BUSY` and `DONE` never both, results cleared while busy, no output after a fault, every output byte fixed (R7, R15
to R22, R96, R97, R110). -/
def Obligations.StepKeepsTheInvariant : Prop :=
  ∀ s t : State, s.Inv → step s = .next t → t.Inv

/-- O57. The machine never stops while the host names only cells that exist (R111, R118, 93_implementation_defined.md section 2): a turn
has a next state. The fault on other cells is the model's choice, log 5. -/
def Obligations.WellFormedTurnsNeverStop : Prop :=
  ∀ s : State, s.Inv → (∀ m, s.moves.head? = some m → m.wellFormed s.lenw = true) → ∃ t, step s = .next t

/-- O58. `MOVO` (R47) from an idle state that meets the invariant: the output becomes the input, and `OLEN` and `OBUF` stay. That
`MOVO` is one turn is the model's choice, log 9. -/
def Obligations.MovoMakesTheOutputTheInput : Prop :=
  ∀ s : State, s.Inv → s.busy = false →
    ∃ t, hostAct .movo s = .next t ∧ t.inValid = true ∧ t.ilen = s.olen ∧ t.olen = s.olen ∧ t.obuf = s.obuf ∧
      (∀ a < s.olen, t.ibuf.lookup a = s.obuf.lookup a) ∧ (∀ a, s.olen ≤ a → t.ibuf.lookup a = s.ibuf.lookup a)
end

