-- ==== Sys2Proof/Laws/Units.lean ====
section
/-! SUPPORT. One lemma per functional unit that says what it does, bit by bit where it moves bits. -/

namespace Sys2Proof.Machine

/-- `w` as a number has the bits of `w`. -/
theorem testBit_toNat_eq {n : Nat} (w : BitVec n) (i : Nat) : w.toNat.testBit i = w.getLsbD i := rfl

/-- Bit `7 - t` of a byte of the payload, 0 past its end. -/
theorem testBit_zeroPast (B : Nat → Byte) (L j i : Nat) :
    (zeroPast B L j).testBit i = (decide (j < L) && (B j).getLsbD i) := by
  unfold zeroPast
  split <;> simp_all [BitVec.testBit_toNat]

/-- PACKSYM moves stream bit `5k + u` to bit `4 - u` of symbol `k`; past the payload the stream is 0 (R34, R65). -/
theorem packSym_bit (B : Nat → Byte) (L k u : Nat) (hu : u < 5) :
    (packSym B L k).getLsbD (4 - u) = (decide ((5 * k + u) / 8 < L) && streamBit B (5 * k + u)) := by
  have h31 : (31 : Nat).testBit (4 - u) = true := by
    have : u = 0 ∨ u = 1 ∨ u = 2 ∨ u = 3 ∨ u = 4 := by omega
    rcases this with rfl | rfl | rfl | rfl | rfl <;> rfl
  have h5 : 4 - u < 5 := by omega
  simp only [packSym, streamBit]
  split
  · rename_i h
    rw [show (5 * k + u) / 8 = 5 * k / 8 by omega, show 7 - (5 * k + u) % 8 = 3 - 5 * k % 8 + (4 - u) by omega]
    simp only [BitVec.getLsbD_ofNat, Nat.testBit_and, Nat.testBit_shiftRight, testBit_zeroPast, h31, h5, decide_true, Bool.true_and,
      Bool.and_true]
  · rename_i h
    simp only [BitVec.getLsbD_ofNat, Nat.testBit_and, Nat.testBit_or, Nat.testBit_shiftLeft, Nat.testBit_shiftRight,
      testBit_zeroPast, h31, h5, decide_true, Bool.true_and, Bool.and_true]
    by_cases hw : u < 8 - 5 * k % 8
    · rw [show (5 * k + u) / 8 = 5 * k / 8 by omega, show 7 - (5 * k + u) % 8 = 4 - u - (5 * k % 8 - 3) by omega,
        BitVec.getLsbD_of_ge (B (5 * k / 8 + 1)) _ (show 8 ≤ 11 - 5 * k % 8 + (4 - u) by omega),
        decide_eq_true (show 4 - u ≥ 5 * k % 8 - 3 by omega)]
      simp
    · rw [show (5 * k + u) / 8 = 5 * k / 8 + 1 by omega, show 7 - (5 * k + u) % 8 = 11 - 5 * k % 8 + (4 - u) by omega,
        decide_eq_false (show ¬ 4 - u ≥ 5 * k % 8 - 3 by omega)]
      simp

@[simp] theorem length_orAt (W : List Byte) (j : Nat) (b : Byte) : (orAt W j b).length = W.length := by
  simp [orAt]

@[simp] theorem length_unpack (W : List Byte) (nb i : Nat) (v : SymVal) : (unpack W nb i v).length = W.length := by
  simp only [unpack]
  split
  · split <;> simp
  · split <;> split <;> simp

/-- `|<-` touches one byte. -/
theorem getD_orAt (W : List Byte) (j x : Nat) (b : Byte) :
    (orAt W j b).getD x 0 = if j = x ∧ x < W.length then W.getD x 0 ||| b else W.getD x 0 := by
  simp only [orAt, List.getD_eq_getElem?_getD, List.getElem?_modify]
  by_cases hx : x < W.length
  · by_cases hj : j = x <;> simp [hx, hj]
  · simp [hx]

/-- A bit of the output after a contribution to byte `j` that is dropped outside the output (R68). -/
theorem bit_orAt_inside (W : List Byte) (nb j x n : Nat) (b : Byte) (hn : W.length = nb) (hx : x < nb) :
    ((if j < nb then orAt W j b else W).getD x 0).getLsbD n =
      ((W.getD x 0).getLsbD n || (decide (j = x) && b.getLsbD n)) := by
  subst hn
  by_cases h : j = x
  · subst h
    rw [if_pos hx, getD_orAt, if_pos ⟨rfl, hx⟩, BitVec.getLsbD_or, decide_eq_true rfl, Bool.true_and]
  · rw [decide_eq_false h, Bool.false_and, Bool.or_false]
    split
    · rw [getD_orAt, if_neg (fun hc => h hc.1)]
    · rfl

/-- UNPACK moves bit `4 - u` of symbol `i` to stream bit `5i + u`, ORing it to what is there, and touches no other bit of the
output (R34, R38, R68). -/
theorem unpack_bit (W : List Byte) (nb i j t : Nat) (v : SymVal) (hn : W.length = nb) (hj : j < nb) (ht : t < 8) :
    ((unpack W nb i v).getD j 0).getLsbD (7 - t) =
      ((W.getD j 0).getLsbD (7 - t) || (decide (5 * i ≤ 8 * j + t ∧ 8 * j + t < 5 * i + 5) && v.getLsbD (4 - (8 * j + t - 5 * i)))) := by
  have h255 : (255 : Nat).testBit (7 - t) = true := by
    have : t = 0 ∨ t = 1 ∨ t = 2 ∨ t = 3 ∨ t = 4 ∨ t = 5 ∨ t = 6 ∨ t = 7 := by omega
    rcases this with rfl | rfl | rfl | rfl | rfl | rfl | rfl | rfl <;> rfl
  have h8 : 7 - t < 8 := by omega
  have hv : ∀ n, 5 ≤ n → v.getLsbD n = false := fun n h => BitVec.getLsbD_of_ge v n h
  simp only [unpack]
  split
  · rw [bit_orAt_inside _ _ _ _ _ _ hn hj]
    congr 1
    simp only [BitVec.getLsbD_ofNat, Nat.testBit_and, Nat.testBit_shiftLeft, BitVec.testBit_toNat, h255, h8, decide_true,
      Bool.true_and, Bool.and_true]
    by_cases hin : 5 * i ≤ 8 * j + t ∧ 8 * j + t < 5 * i + 5
    · rw [decide_eq_true hin, decide_eq_true (show 5 * i / 8 = j by omega), decide_eq_true (show 7 - t ≥ 3 - 5 * i % 8 by omega),
        show 7 - t - (3 - 5 * i % 8) = 4 - (8 * j + t - 5 * i) by omega]
      rfl
    · rw [decide_eq_false hin, Bool.false_and]
      by_cases h : 5 * i / 8 = j
      · by_cases h3 : 7 - t ≥ 3 - 5 * i % 8
        · rw [hv _ (by omega)]
          simp
        · rw [decide_eq_false h3]
          simp
      · simp [h]
  · rw [bit_orAt_inside _ _ _ _ _ _ (by split <;> simp [hn]) hj, bit_orAt_inside _ _ _ _ _ _ hn hj, Bool.or_assoc]
    congr 1
    simp only [BitVec.getLsbD_ofNat, Nat.testBit_and, Nat.testBit_shiftLeft, Nat.testBit_shiftRight, BitVec.testBit_toNat, h255, h8,
      decide_true, Bool.true_and, Bool.and_true]
    by_cases h0 : 5 * i / 8 = j
    · rw [decide_eq_true h0, decide_eq_false (show ¬ 5 * i / 8 + 1 = j by omega)]
      simp only [Bool.true_and, Bool.false_and, Bool.or_false]
      by_cases hin : 5 * i ≤ 8 * j + t ∧ 8 * j + t < 5 * i + 5
      · rw [decide_eq_true hin, show 5 * i % 8 - 3 + (7 - t) = 4 - (8 * j + t - 5 * i) by omega]
        rfl
      · rw [decide_eq_false hin, hv _ (by omega)]
        rfl
    · rw [decide_eq_false h0]
      simp only [Bool.false_and, Bool.false_or]
      by_cases hin : 5 * i ≤ 8 * j + t ∧ 8 * j + t < 5 * i + 5
      · rw [decide_eq_true hin, decide_eq_true (show 5 * i / 8 + 1 = j by omega), decide_eq_true (show 7 - t ≥ 11 - 5 * i % 8 by omega),
          show 7 - t - (11 - 5 * i % 8) = 4 - (8 * j + t - 5 * i) by omega]
        rfl
      · rw [decide_eq_false hin]
        by_cases h1 : 5 * i / 8 + 1 = j
        · rw [decide_eq_false (show ¬ 7 - t ≥ 11 - 5 * i % 8 by omega)]
          simp
        · simp [h1]

end Sys2Proof.Machine
end

