-- ==== Sys2Proof/Laws/Decode.lean ====
section
/-! SUPPORT. The input walk and the unpacking loop of DEC and DECS: what they answer, and when. -/

namespace Sys2Proof.Machine

variable {S : Nat → Byte} {len nb : Nat}

/-- `nonsep` lists the indices of the bytes that are no separator. -/
@[simp] theorem mem_nonsep {x : Nat} : x ∈ nonsep S len ↔ x < len ∧ isSep (S x) = false := by
  simp [nonsep]

theorem length_nonsep_le : (nonsep S len).length ≤ len := by
  simpa [nonsep] using List.length_filter_le (fun i => !isSep (S i)) (List.range len)

/-- `nonsep` depends on the bytes below `len` only. -/
theorem nonsep_congr {S' : Nat → Byte} (h : ∀ i < len, S i = S' i) : nonsep S len = nonsep S' len := by
  apply List.filter_congr
  intro i hi
  rw [h i (List.mem_range.1 hi)]

/-- The bytes at the indices `nonsep` lists are the text after separator stripping (R9, R80). -/
theorem map_nonsep : (nonsep S len).map S = strip ((List.range len).map S) := by
  simp [nonsep, strip, List.filter_map, Function.comp_def]

/-- A text read back index by index. -/
theorem range_map_getD (bs : List Byte) (h : ∀ i (hi : i < bs.length), S i = bs[i]) :
    (List.range bs.length).map S = bs := by
  apply List.ext_getElem
  · simp
  · intro i h1 h2
    simpa using h i h2

/-- The first character outside the alphabet stops the loop, with its index and its byte (R95). -/
theorem unpackFrom_error {ys zs : List Nat} {y i : Nat} {W : List Byte} (hy : ∀ x ∈ ys, valid (S x) = true)
    (hv : valid (S y) = false) : unpackFrom S nb (ys ++ y :: zs) i W = .error (y, S y) := by
  induction ys generalizing i W with
  | nil => simp [unpackFrom, hv]
  | cons x ys ih =>
    rw [List.cons_append, unpackFrom, if_pos (hy x (by simp))]
    exact ih (fun x hx => hy x (by simp [hx]))

/-- An index the loop stops with is one of its indices. -/
theorem mem_of_unpackFrom_error {xs : List Nat} {i : Nat} {W : List Byte} {e : Nat × Byte}
    (h : unpackFrom S nb xs i W = .error e) : e.1 ∈ xs := by
  induction xs generalizing i W with
  | nil => simp [unpackFrom] at h
  | cons x xs ih =>
    rw [unpackFrom] at h
    split at h
    · exact List.mem_cons_of_mem _ (ih h)
    · cases h
      simp

theorem length_of_unpackFrom_ok {xs : List Nat} {i : Nat} {W W' : List Byte} (h : unpackFrom S nb xs i W = .ok W') :
    W'.length = W.length := by
  induction xs generalizing i W with
  | nil => cases h; rfl
  | cons x xs ih =>
    rw [unpackFrom] at h
    split at h
    · rw [ih h, length_unpack]
    · cases h

/-- On symbols the loop goes through and ORs bit `4 - u` of each symbol to its stream bit (R34, R68). -/
theorem unpackFrom_ok {xs : List Nat} {i : Nat} {W : List Byte} (hx : ∀ x ∈ xs, valid (S x) = true) (hn : W.length = nb) :
    ∃ W', unpackFrom S nb xs i W = .ok W' ∧ W'.length = nb ∧ ∀ j < nb, ∀ t < 8,
      (W'.getD j 0).getLsbD (7 - t) = ((W.getD j 0).getLsbD (7 - t) ||
        (decide (5 * i ≤ 8 * j + t ∧ 8 * j + t < 5 * (i + xs.length)) &&
          (sym2val (S (xs.getD ((8 * j + t) / 5 - i) 0))).getLsbD (4 - (8 * j + t) % 5))) := by
  induction xs generalizing i W with
  | nil =>
    refine ⟨W, rfl, hn, fun j _ t _ => ?_⟩
    rw [decide_eq_false (by simp only [List.length_nil]; omega)]
    simp
  | cons x xs ih =>
    obtain ⟨W', h, hl, hb⟩ := ih (i := i + 1) (W := unpack W nb i (sym2val (S x))) (fun y hy => hx y (by simp [hy])) (by simp [hn])
    refine ⟨W', by rw [unpackFrom, if_pos (hx x (by simp)), h], hl, fun j hj t ht => ?_⟩
    rw [hb j hj t ht, unpack_bit W nb i j t _ hn hj ht, Bool.or_assoc]
    congr 1
    simp only [List.length_cons]
    by_cases h1 : 5 * i ≤ 8 * j + t ∧ 8 * j + t < 5 * i + 5
    · rw [decide_eq_true h1, decide_eq_false (by omega), decide_eq_true (by omega), show (8 * j + t) / 5 - i = 0 by omega,
        show 4 - (8 * j + t - 5 * i) = 4 - (8 * j + t) % 5 by omega]
      simp
    · rw [decide_eq_false h1, Bool.false_and, Bool.false_or]
      by_cases h2 : 5 * (i + 1) ≤ 8 * j + t ∧ 8 * j + t < 5 * (i + 1 + xs.length)
      · rw [decide_eq_true h2, decide_eq_true (by omega), show (8 * j + t) / 5 - i = (8 * j + t) / 5 - (i + 1) + 1 by omega]
        simp
      · rw [decide_eq_false h2, decide_eq_false (by omega)]
        simp

/-- The data characters unpacked: stream bit `n` of the bytes is stream bit `n` of the symbols (R34, R71). -/
theorem unpackAll_ok {xs : List Nat} (hx : ∀ x ∈ xs, valid (S x) = true) :
    ∃ W, unpackAll S xs = .ok W ∧ W.length = nbytes xs.length ∧ ∀ j < nbytes xs.length, ∀ t < 8,
      (W.getD j 0).getLsbD (7 - t) = (sym2val (S (xs.getD ((8 * j + t) / 5) 0))).getLsbD (4 - (8 * j + t) % 5) := by
  obtain ⟨W, h, hl, hb⟩ := unpackFrom_ok (nb := nbytes xs.length) (i := 0) (W := List.replicate (nbytes xs.length) 0) hx (by simp)
  refine ⟨W, h, hl, fun j hj t ht => ?_⟩
  have hj' : j < 5 * xs.length / 8 := hj
  rw [hb j hj t ht, decide_eq_true (by omega)]
  simp

/-- The first data character outside the alphabet (R95). -/
theorem unpackAll_error {ys zs : List Nat} {y : Nat} (hy : ∀ x ∈ ys, valid (S x) = true) (hv : valid (S y) = false) :
    unpackAll S (ys ++ y :: zs) = .error (y, S y) := unpackFrom_error hy hv

/-- The two answers of the unpacking loop. -/
theorem unpackAll_cases (xs : List Nat) :
    (∃ W, unpackAll S xs = .ok W ∧ W.length = nbytes xs.length) ∨ (∃ e, unpackAll S xs = .error e ∧ e.1 ∈ xs) := by
  cases h : unpackAll S xs with
  | ok W => exact .inl ⟨W, rfl, by simpa using length_of_unpackFrom_ok h⟩
  | error e => exact .inr ⟨e, rfl, mem_of_unpackFrom_error h⟩

/-- A valid padding digit stands for 0 to 4 (R64). -/
theorem padDec_le {c : Byte} {p : Nat} (h : padDec c = some p) : p ≤ 4 := by
  unfold padDec at h
  split at h
  · rename_i hc
    simp only [Bool.and_eq_true, decide_eq_true_eq] at hc
    cases h
    exact hc.2
  · cases h

theorem padCalc_le (L : Nat) : padCalc L ≤ 4 := by
  simp only [padCalc]
  omega

end Sys2Proof.Machine
end

