-- ==== Sys2Proof/Laws/Memory.lean ====
section
/-! SUPPORT. The laws of a buffer: reading after writing, and that every operation keeps the canonical form. -/

namespace Sys2Proof.Machine

@[simp] theorem Memory.lookup_nil (a : Nat) : Memory.lookup [] a = none := rfl

@[simp] theorem Memory.lookup_cons (i : Nat) (b : Byte) (m : Memory) (a : Nat) :
    Memory.lookup ((i, b) :: m) a = if i = a then some b else Memory.lookup m a := rfl

/-- A read after a write: the written cell holds the byte, every other cell is as before. -/
theorem Memory.lookup_write (m : Memory) (a : Nat) (b : Byte) (x : Nat) :
    (m.write a b).lookup x = if a = x then some b else m.lookup x := by
  induction m with
  | nil => simp [Memory.write]
  | cons c m ih =>
    obtain ⟨i, c⟩ := c
    unfold Memory.write
    split
    · simp
    · split
      · rename_i h
        subst h
        by_cases hx : a = x <;> simp [hx]
      · rename_i h
        by_cases hx : a = x
        · subst hx
          simp [ih, Ne.symm h]
        · by_cases hi : i = x <;> simp [ih, hx, hi]

@[simp] theorem Memory.lookup_write_same (m : Memory) (a : Nat) (b : Byte) : (m.write a b).lookup a = some b := by
  simp [Memory.lookup_write]

theorem Memory.lookup_write_ne (m : Memory) (a : Nat) (b : Byte) {x : Nat} (h : a ≠ x) :
    (m.write a b).lookup x = m.lookup x := by
  simp [Memory.lookup_write, h]

@[simp] theorem Memory.wf_nil (cap : Nat) : Memory.wf cap [] = true := rfl

/-- The canonical form of a list with a first cell. -/
theorem Memory.wf_cons (cap i : Nat) (b : Byte) (m : Memory) :
    Memory.wf cap ((i, b) :: m) = true ↔ i < cap ∧ (∀ c ∈ m, i < c.1) ∧ Memory.wf cap m = true := by
  simp only [Memory.wf, List.pairwise_cons, List.all_cons, Bool.and_eq_true, decide_eq_true_eq]
  tauto

/-- The cells of a buffer after a write: the written one and those that were there. -/
theorem Memory.mem_write {m : Memory} {a : Nat} {b : Byte} {c : Host.Cell} (h : c ∈ m.write a b) : c = (a, b) ∨ c ∈ m := by
  induction m with
  | nil => simpa [Memory.write] using h
  | cons d m ih =>
    obtain ⟨i, d⟩ := d
    unfold Memory.write at h
    split at h
    · simpa using h
    · split at h
      · rcases List.mem_cons.1 h with h | h <;> simp [h]
      · rcases List.mem_cons.1 h with h | h
        · simp [h]
        · rcases ih h with h | h <;> simp [h]

/-- A write to a cell the buffer has keeps the canonical form. -/
theorem Memory.wf_write {cap : Nat} {m : Memory} {a : Nat} (b : Byte) (hm : m.wf cap = true) (ha : a < cap) :
    (m.write a b).wf cap = true := by
  induction m with
  | nil => simp [Memory.write, Memory.wf_cons, ha]
  | cons d m ih =>
    obtain ⟨i, d⟩ := d
    obtain ⟨hi, hlt, hm⟩ := (Memory.wf_cons ..).1 hm
    unfold Memory.write
    split
    · rename_i h
      refine (Memory.wf_cons ..).2 ⟨ha, fun c hc => ?_, (Memory.wf_cons ..).2 ⟨hi, hlt, hm⟩⟩
      rcases List.mem_cons.1 hc with rfl | hc
      · exact h
      · exact h.trans (hlt c hc)
    · split
      · rename_i h
        exact (Memory.wf_cons ..).2 ⟨ha, h ▸ hlt, hm⟩
      · refine (Memory.wf_cons ..).2 ⟨hi, fun c hc => ?_, ih hm⟩
        rcases Memory.mem_write hc with rfl | hc
        · simp only
          omega
        · exact hlt c hc

/-- A listed cell is a cell of the list. -/
theorem Memory.mem_of_lookup {m : Memory} {a : Nat} {b : Byte} (h : m.lookup a = some b) : (a, b) ∈ m := by
  induction m with
  | nil => simp at h
  | cons c m ih =>
    obtain ⟨i, c⟩ := c
    rw [Memory.lookup_cons] at h
    split at h
    · simp_all
    · exact List.mem_cons_of_mem _ (ih h)

/-- In canonical form only cells the buffer has are listed. -/
theorem Memory.lt_of_lookup {cap : Nat} {m : Memory} {a : Nat} {b : Byte} (hm : m.wf cap = true)
    (h : m.lookup a = some b) : a < cap := by
  simp only [Memory.wf, Bool.and_eq_true, List.all_eq_true, decide_eq_true_eq] at hm
  exact hm.2 _ (Memory.mem_of_lookup h)

theorem Memory.lookup_ofBytesFrom (bs : List Byte) (i a : Nat) :
    (Memory.ofBytesFrom i bs).lookup a = if i ≤ a then bs[a - i]? else none := by
  induction bs generalizing i with
  | nil => simp [Memory.ofBytesFrom]
  | cons b bs ih =>
    simp only [Memory.ofBytesFrom, Memory.lookup_cons, ih]
    by_cases h : i = a
    · simp [h]
    · by_cases h' : i ≤ a
      · obtain ⟨n, rfl⟩ : ∃ n, a = i + 1 + n := ⟨a - (i + 1), by omega⟩
        simp [show i + 1 + n - i = n + 1 by omega, show i ≤ i + 1 + n by omega, show i ≠ i + 1 + n by omega]
      · simp [h, h', show ¬ i + 1 ≤ a by omega]

/-- A byte sequence in a buffer: cell `a` holds byte `a` of it, and there is no other (R34). -/
@[simp] theorem Memory.lookup_ofBytes (bs : List Byte) (a : Nat) : (Memory.ofBytes bs).lookup a = bs[a]? := by
  simp [Memory.ofBytes, Memory.lookup_ofBytesFrom]

theorem Memory.le_of_mem_ofBytesFrom {bs : List Byte} {i : Nat} {c : Host.Cell} (h : c ∈ Memory.ofBytesFrom i bs) : i ≤ c.1 := by
  induction bs generalizing i with
  | nil => simp [Memory.ofBytesFrom] at h
  | cons b bs ih =>
    rcases List.mem_cons.1 h with rfl | h
    · exact Nat.le_refl _
    · have := ih h
      omega

theorem Memory.wf_ofBytesFrom {cap : Nat} {bs : List Byte} {i : Nat} (h : i + bs.length ≤ cap) :
    (Memory.ofBytesFrom i bs).wf cap = true := by
  induction bs generalizing i with
  | nil => rfl
  | cons b bs ih =>
    simp only [List.length_cons] at h
    refine (Memory.wf_cons ..).2 ⟨by omega, fun c hc => ?_, ih (by omega)⟩
    have := Memory.le_of_mem_ofBytesFrom hc
    omega

/-- A byte sequence that fits a buffer is in canonical form there. -/
theorem Memory.wf_ofBytes {cap : Nat} {bs : List Byte} (h : bs.length ≤ cap) : (Memory.ofBytes bs).wf cap = true :=
  Memory.wf_ofBytesFrom (by omega)

end Sys2Proof.Machine
end

