-- ==== Sys2Proof/Laws/Encode.lean ====
section
/-! SUPPORT. The symbol loop of ENC and ENCS: what it writes where, and that it writes nothing else. `Spread pos` says what the two
position functions have in common. -/

namespace Sys2Proof.Machine

/-- Positions rise, and leave a cell free before each symbol whose index is a positive multiple of 4. -/
structure Spread (pos : Nat → Nat) : Prop where
  lt : ∀ i j, i < j → pos i < pos j
  gap : ∀ i j, i < j → j % 4 = 0 → pos i < pos j - 1

theorem spread_posN : Spread posN := ⟨fun i j h => by simp only [posN]; omega, fun i j h h' => by simp only [posN]; omega⟩

theorem spread_posS : Spread posS := ⟨fun i j h => by simp only [posS]; omega, fun i j h h' => by simp only [posS]; omega⟩

variable {B : Nat → Nat → Byte} {L : Nat} {pos : Nat → Nat} {m : Memory}

/-- One turn of the loop, cell by cell. -/
theorem lookup_writeSymbols_succ (N a : Nat) :
    (writeSymbols B L pos (N + 1) m).lookup a =
      if pos N = a then some (val2sym (packSym (B N) L N))
      else if (0 < N ∧ N % 4 = 0) ∧ pos N - 1 = a then some sep
      else (writeSymbols B L pos N m).lookup a := by
  simp only [writeSymbols, Memory.lookup_write]
  split
  · rfl
  · split <;> simp_all [Memory.lookup_write]

/-- Symbol `k` stands at `pos k`. -/
theorem lookup_writeSymbols_symbol (hp : Spread pos) {N k : Nat} (hk : k < N) :
    (writeSymbols B L pos N m).lookup (pos k) = some (val2sym (packSym (B k) L k)) := by
  induction N with
  | zero => omega
  | succ N ih =>
    rw [lookup_writeSymbols_succ]
    rcases Nat.lt_succ_iff_lt_or_eq.1 hk with h | rfl
    · have := hp.lt _ _ h
      rw [if_neg (by omega), if_neg (fun ⟨⟨_, h4⟩, he⟩ => by have := hp.gap _ _ h h4; omega), ih h]
    · rw [if_pos rfl]

/-- A separator stands before each symbol whose index is a positive multiple of 4. -/
theorem lookup_writeSymbols_sep (hp : Spread pos) {N k : Nat} (hk : k < N) (h0 : 0 < k) (h4 : k % 4 = 0) :
    (writeSymbols B L pos N m).lookup (pos k - 1) = some sep := by
  induction N with
  | zero => omega
  | succ N ih =>
    rw [lookup_writeSymbols_succ]
    rcases Nat.lt_succ_iff_lt_or_eq.1 hk with h | rfl
    · have := hp.lt _ _ h
      rw [if_neg (by omega), if_neg (fun ⟨⟨_, h4⟩, he⟩ => by have := hp.gap _ _ h h4; omega), ih h]
    · have := hp.lt _ _ h0
      rw [if_neg (by omega), if_pos ⟨⟨h0, h4⟩, rfl⟩]

/-- Every other cell is as it was before the loop. -/
theorem lookup_writeSymbols_other {N a : Nat} (hs : ∀ k < N, pos k ≠ a) (hg : ∀ k < N, 0 < k → k % 4 = 0 → pos k - 1 ≠ a) :
    (writeSymbols B L pos N m).lookup a = m.lookup a := by
  induction N with
  | zero => rfl
  | succ N ih =>
    rw [lookup_writeSymbols_succ, if_neg (hs N (by omega)), if_neg (fun ⟨⟨h0, h4⟩, he⟩ => hg N (by omega) h0 h4 he)]
    exact ih (fun k hk => hs k (by omega)) (fun k hk => hg k (by omega))

/-- The loop keeps the canonical form when its positions are cells of the buffer. -/
theorem wf_writeSymbols {cap N : Nat} (hm : m.wf cap = true) (hp : ∀ k < N, pos k < cap) :
    (writeSymbols B L pos N m).wf cap = true := by
  induction N with
  | zero => exact hm
  | succ N ih =>
    have hN := hp N (by omega)
    have hm := ih (fun k hk => hp k (by omega))
    simp only [writeSymbols]
    apply Memory.wf_write _ _ hN
    split
    · exact Memory.wf_write _ hm (by omega)
    · exact hm

end Sys2Proof.Machine
end

