-- ==== Sys2Proof/Laws/State.lean ====
section
/-! SUPPORT. What each update of State does to each field: one lemma per field per update, true by rfl, so that no later proof
unfolds a record update. -/

namespace Sys2Proof.Machine

variable (s : State)

/-! `State.setCmd` -/

@[simp] theorem State.setCmd_cmd (op : Opcode) : (s.setCmd op).cmd = op := rfl
@[simp] theorem State.setCmd_ilen (op : Opcode) : (s.setCmd op).ilen = s.ilen := rfl
@[simp] theorem State.setCmd_busy (op : Opcode) : (s.setCmd op).busy = s.busy := rfl
@[simp] theorem State.setCmd_done (op : Opcode) : (s.setCmd op).done = s.done := rfl
@[simp] theorem State.setCmd_result (op : Opcode) : (s.setCmd op).result = s.result := rfl
@[simp] theorem State.setCmd_inValid (op : Opcode) : (s.setCmd op).inValid = s.inValid := rfl
@[simp] theorem State.setCmd_err (op : Opcode) : (s.setCmd op).err = s.err := rfl
@[simp] theorem State.setCmd_olen (op : Opcode) : (s.setCmd op).olen = s.olen := rfl
@[simp] theorem State.setCmd_epos (op : Opcode) : (s.setCmd op).epos = s.epos := rfl
@[simp] theorem State.setCmd_echar (op : Opcode) : (s.setCmd op).echar = s.echar := rfl
@[simp] theorem State.setCmd_pad (op : Opcode) : (s.setCmd op).pad = s.pad := rfl
@[simp] theorem State.setCmd_ibuf (op : Opcode) : (s.setCmd op).ibuf = s.ibuf := rfl
@[simp] theorem State.setCmd_obuf (op : Opcode) : (s.setCmd op).obuf = s.obuf := rfl
@[simp] theorem State.setCmd_lenw (op : Opcode) : (s.setCmd op).lenw = s.lenw := rfl
@[simp] theorem State.setCmd_draws (op : Opcode) : (s.setCmd op).draws = s.draws := rfl
@[simp] theorem State.setCmd_moves (op : Opcode) : (s.setCmd op).moves = s.moves := rfl
@[simp] theorem State.setCmd_seen (op : Opcode) : (s.setCmd op).seen = s.seen := rfl

/-! `State.setPad` -/

@[simp] theorem State.setPad_cmd (p : Nat) : (s.setPad p).cmd = s.cmd := rfl
@[simp] theorem State.setPad_ilen (p : Nat) : (s.setPad p).ilen = s.ilen := rfl
@[simp] theorem State.setPad_busy (p : Nat) : (s.setPad p).busy = s.busy := rfl
@[simp] theorem State.setPad_done (p : Nat) : (s.setPad p).done = s.done := rfl
@[simp] theorem State.setPad_result (p : Nat) : (s.setPad p).result = s.result := rfl
@[simp] theorem State.setPad_inValid (p : Nat) : (s.setPad p).inValid = s.inValid := rfl
@[simp] theorem State.setPad_err (p : Nat) : (s.setPad p).err = s.err := rfl
@[simp] theorem State.setPad_olen (p : Nat) : (s.setPad p).olen = s.olen := rfl
@[simp] theorem State.setPad_epos (p : Nat) : (s.setPad p).epos = s.epos := rfl
@[simp] theorem State.setPad_echar (p : Nat) : (s.setPad p).echar = s.echar := rfl
@[simp] theorem State.setPad_pad (p : Nat) : (s.setPad p).pad = BitVec.ofNat 3 p := rfl
@[simp] theorem State.setPad_ibuf (p : Nat) : (s.setPad p).ibuf = s.ibuf := rfl
@[simp] theorem State.setPad_obuf (p : Nat) : (s.setPad p).obuf = s.obuf := rfl
@[simp] theorem State.setPad_lenw (p : Nat) : (s.setPad p).lenw = s.lenw := rfl
@[simp] theorem State.setPad_draws (p : Nat) : (s.setPad p).draws = s.draws := rfl
@[simp] theorem State.setPad_moves (p : Nat) : (s.setPad p).moves = s.moves := rfl
@[simp] theorem State.setPad_seen (p : Nat) : (s.setPad p).seen = s.seen := rfl

/-! `State.setIlen` -/

@[simp] theorem State.setIlen_cmd (v : Nat) : (s.setIlen v).cmd = s.cmd := rfl
@[simp] theorem State.setIlen_ilen (v : Nat) : (s.setIlen v).ilen = v % 2 ^ s.lenw := rfl
@[simp] theorem State.setIlen_busy (v : Nat) : (s.setIlen v).busy = s.busy := rfl
@[simp] theorem State.setIlen_done (v : Nat) : (s.setIlen v).done = s.done := rfl
@[simp] theorem State.setIlen_result (v : Nat) : (s.setIlen v).result = s.result := rfl
@[simp] theorem State.setIlen_inValid (v : Nat) : (s.setIlen v).inValid = true := rfl
@[simp] theorem State.setIlen_err (v : Nat) : (s.setIlen v).err = s.err := rfl
@[simp] theorem State.setIlen_olen (v : Nat) : (s.setIlen v).olen = s.olen := rfl
@[simp] theorem State.setIlen_epos (v : Nat) : (s.setIlen v).epos = s.epos := rfl
@[simp] theorem State.setIlen_echar (v : Nat) : (s.setIlen v).echar = s.echar := rfl
@[simp] theorem State.setIlen_pad (v : Nat) : (s.setIlen v).pad = s.pad := rfl
@[simp] theorem State.setIlen_ibuf (v : Nat) : (s.setIlen v).ibuf = s.ibuf := rfl
@[simp] theorem State.setIlen_obuf (v : Nat) : (s.setIlen v).obuf = s.obuf := rfl
@[simp] theorem State.setIlen_lenw (v : Nat) : (s.setIlen v).lenw = s.lenw := rfl
@[simp] theorem State.setIlen_draws (v : Nat) : (s.setIlen v).draws = s.draws := rfl
@[simp] theorem State.setIlen_moves (v : Nat) : (s.setIlen v).moves = s.moves := rfl
@[simp] theorem State.setIlen_seen (v : Nat) : (s.setIlen v).seen = s.seen := rfl

/-! `State.clearInput` -/

@[simp] theorem State.clearInput_cmd : s.clearInput.cmd = s.cmd := rfl
@[simp] theorem State.clearInput_ilen : s.clearInput.ilen = s.ilen := rfl
@[simp] theorem State.clearInput_busy : s.clearInput.busy = s.busy := rfl
@[simp] theorem State.clearInput_done : s.clearInput.done = s.done := rfl
@[simp] theorem State.clearInput_result : s.clearInput.result = s.result := rfl
@[simp] theorem State.clearInput_inValid : s.clearInput.inValid = false := rfl
@[simp] theorem State.clearInput_err : s.clearInput.err = s.err := rfl
@[simp] theorem State.clearInput_olen : s.clearInput.olen = s.olen := rfl
@[simp] theorem State.clearInput_epos : s.clearInput.epos = s.epos := rfl
@[simp] theorem State.clearInput_echar : s.clearInput.echar = s.echar := rfl
@[simp] theorem State.clearInput_pad : s.clearInput.pad = s.pad := rfl
@[simp] theorem State.clearInput_ibuf : s.clearInput.ibuf = s.ibuf := rfl
@[simp] theorem State.clearInput_obuf : s.clearInput.obuf = s.obuf := rfl
@[simp] theorem State.clearInput_lenw : s.clearInput.lenw = s.lenw := rfl
@[simp] theorem State.clearInput_draws : s.clearInput.draws = s.draws := rfl
@[simp] theorem State.clearInput_moves : s.clearInput.moves = s.moves := rfl
@[simp] theorem State.clearInput_seen : s.clearInput.seen = s.seen := rfl

/-! `State.acceptStart` -/

@[simp] theorem State.acceptStart_cmd : s.acceptStart.cmd = s.cmd := rfl
@[simp] theorem State.acceptStart_ilen : s.acceptStart.ilen = s.ilen := rfl
@[simp] theorem State.acceptStart_busy : s.acceptStart.busy = true := rfl
@[simp] theorem State.acceptStart_done : s.acceptStart.done = false := rfl
@[simp] theorem State.acceptStart_result : s.acceptStart.result = false := rfl
@[simp] theorem State.acceptStart_inValid : s.acceptStart.inValid = s.inValid := rfl
@[simp] theorem State.acceptStart_err : s.acceptStart.err = .ok := rfl
@[simp] theorem State.acceptStart_olen : s.acceptStart.olen = 0 := rfl
@[simp] theorem State.acceptStart_epos : s.acceptStart.epos = 0 := rfl
@[simp] theorem State.acceptStart_echar : s.acceptStart.echar = 0 := rfl
@[simp] theorem State.acceptStart_pad : s.acceptStart.pad = 0 := rfl
@[simp] theorem State.acceptStart_ibuf : s.acceptStart.ibuf = s.ibuf := rfl
@[simp] theorem State.acceptStart_obuf : s.acceptStart.obuf = s.obuf := rfl
@[simp] theorem State.acceptStart_lenw : s.acceptStart.lenw = s.lenw := rfl
@[simp] theorem State.acceptStart_draws : s.acceptStart.draws = s.draws + 1 := rfl
@[simp] theorem State.acceptStart_moves : s.acceptStart.moves = s.moves := rfl
@[simp] theorem State.acceptStart_seen : s.acceptStart.seen = s.seen := rfl

/-! `State.finish` -/

@[simp] theorem State.finish_cmd : s.finish.cmd = s.cmd := rfl
@[simp] theorem State.finish_ilen : s.finish.ilen = s.ilen := rfl
@[simp] theorem State.finish_busy : s.finish.busy = false := rfl
@[simp] theorem State.finish_done : s.finish.done = true := rfl
@[simp] theorem State.finish_result : s.finish.result = s.result := rfl
@[simp] theorem State.finish_inValid : s.finish.inValid = s.inValid := rfl
@[simp] theorem State.finish_err : s.finish.err = s.err := rfl
@[simp] theorem State.finish_olen : s.finish.olen = s.olen := rfl
@[simp] theorem State.finish_epos : s.finish.epos = s.epos := rfl
@[simp] theorem State.finish_echar : s.finish.echar = s.echar := rfl
@[simp] theorem State.finish_pad : s.finish.pad = s.pad := rfl
@[simp] theorem State.finish_ibuf : s.finish.ibuf = s.ibuf := rfl
@[simp] theorem State.finish_obuf : s.finish.obuf = s.obuf := rfl
@[simp] theorem State.finish_lenw : s.finish.lenw = s.lenw := rfl
@[simp] theorem State.finish_draws : s.finish.draws = s.draws + 1 := rfl
@[simp] theorem State.finish_moves : s.finish.moves = s.moves := rfl
@[simp] theorem State.finish_seen : s.finish.seen = s.seen := rfl

/-! `State.raise` -/

@[simp] theorem State.raise_cmd (e : ErrCode) : (s.raise e).cmd = s.cmd := rfl
@[simp] theorem State.raise_ilen (e : ErrCode) : (s.raise e).ilen = s.ilen := rfl
@[simp] theorem State.raise_busy (e : ErrCode) : (s.raise e).busy = false := rfl
@[simp] theorem State.raise_done (e : ErrCode) : (s.raise e).done = true := rfl
@[simp] theorem State.raise_result (e : ErrCode) : (s.raise e).result = s.result := rfl
@[simp] theorem State.raise_inValid (e : ErrCode) : (s.raise e).inValid = s.inValid := rfl
@[simp] theorem State.raise_err (e : ErrCode) : (s.raise e).err = e := rfl
@[simp] theorem State.raise_olen (e : ErrCode) : (s.raise e).olen = 0 := rfl
@[simp] theorem State.raise_epos (e : ErrCode) : (s.raise e).epos = s.epos := rfl
@[simp] theorem State.raise_echar (e : ErrCode) : (s.raise e).echar = s.echar := rfl
@[simp] theorem State.raise_pad (e : ErrCode) : (s.raise e).pad = s.pad := rfl
@[simp] theorem State.raise_ibuf (e : ErrCode) : (s.raise e).ibuf = s.ibuf := rfl
@[simp] theorem State.raise_obuf (e : ErrCode) : (s.raise e).obuf = [] := rfl
@[simp] theorem State.raise_lenw (e : ErrCode) : (s.raise e).lenw = s.lenw := rfl
@[simp] theorem State.raise_draws (e : ErrCode) : (s.raise e).draws = s.draws + 1 := rfl
@[simp] theorem State.raise_moves (e : ErrCode) : (s.raise e).moves = s.moves := rfl
@[simp] theorem State.raise_seen (e : ErrCode) : (s.raise e).seen = s.seen := rfl

/-! `State.raiseChr` -/

@[simp] theorem State.raiseChr_cmd (i : Nat) (c : Byte) : (s.raiseChr i c).cmd = s.cmd := rfl
@[simp] theorem State.raiseChr_ilen (i : Nat) (c : Byte) : (s.raiseChr i c).ilen = s.ilen := rfl
@[simp] theorem State.raiseChr_busy (i : Nat) (c : Byte) : (s.raiseChr i c).busy = false := rfl
@[simp] theorem State.raiseChr_done (i : Nat) (c : Byte) : (s.raiseChr i c).done = true := rfl
@[simp] theorem State.raiseChr_result (i : Nat) (c : Byte) : (s.raiseChr i c).result = s.result := rfl
@[simp] theorem State.raiseChr_inValid (i : Nat) (c : Byte) : (s.raiseChr i c).inValid = s.inValid := rfl
@[simp] theorem State.raiseChr_err (i : Nat) (c : Byte) : (s.raiseChr i c).err = .chr := rfl
@[simp] theorem State.raiseChr_olen (i : Nat) (c : Byte) : (s.raiseChr i c).olen = 0 := rfl
@[simp] theorem State.raiseChr_epos (i : Nat) (c : Byte) : (s.raiseChr i c).epos = i := rfl
@[simp] theorem State.raiseChr_echar (i : Nat) (c : Byte) : (s.raiseChr i c).echar = c := rfl
@[simp] theorem State.raiseChr_pad (i : Nat) (c : Byte) : (s.raiseChr i c).pad = s.pad := rfl
@[simp] theorem State.raiseChr_ibuf (i : Nat) (c : Byte) : (s.raiseChr i c).ibuf = s.ibuf := rfl
@[simp] theorem State.raiseChr_obuf (i : Nat) (c : Byte) : (s.raiseChr i c).obuf = [] := rfl
@[simp] theorem State.raiseChr_lenw (i : Nat) (c : Byte) : (s.raiseChr i c).lenw = s.lenw := rfl
@[simp] theorem State.raiseChr_draws (i : Nat) (c : Byte) : (s.raiseChr i c).draws = s.draws + 1 := rfl
@[simp] theorem State.raiseChr_moves (i : Nat) (c : Byte) : (s.raiseChr i c).moves = s.moves := rfl
@[simp] theorem State.raiseChr_seen (i : Nat) (c : Byte) : (s.raiseChr i c).seen = s.seen := rfl

/-! `State.answer` -/

@[simp] theorem State.answer_cmd (b : Bool) : (s.answer b).cmd = s.cmd := rfl
@[simp] theorem State.answer_ilen (b : Bool) : (s.answer b).ilen = s.ilen := rfl
@[simp] theorem State.answer_busy (b : Bool) : (s.answer b).busy = false := rfl
@[simp] theorem State.answer_done (b : Bool) : (s.answer b).done = true := rfl
@[simp] theorem State.answer_result (b : Bool) : (s.answer b).result = b := rfl
@[simp] theorem State.answer_inValid (b : Bool) : (s.answer b).inValid = s.inValid := rfl
@[simp] theorem State.answer_err (b : Bool) : (s.answer b).err = s.err := rfl
@[simp] theorem State.answer_olen (b : Bool) : (s.answer b).olen = s.olen := rfl
@[simp] theorem State.answer_epos (b : Bool) : (s.answer b).epos = s.epos := rfl
@[simp] theorem State.answer_echar (b : Bool) : (s.answer b).echar = s.echar := rfl
@[simp] theorem State.answer_pad (b : Bool) : (s.answer b).pad = s.pad := rfl
@[simp] theorem State.answer_ibuf (b : Bool) : (s.answer b).ibuf = s.ibuf := rfl
@[simp] theorem State.answer_obuf (b : Bool) : (s.answer b).obuf = s.obuf := rfl
@[simp] theorem State.answer_lenw (b : Bool) : (s.answer b).lenw = s.lenw := rfl
@[simp] theorem State.answer_draws (b : Bool) : (s.answer b).draws = s.draws + 1 := rfl
@[simp] theorem State.answer_moves (b : Bool) : (s.answer b).moves = s.moves := rfl
@[simp] theorem State.answer_seen (b : Bool) : (s.answer b).seen = s.seen := rfl

/-! `State.deliver` -/

@[simp] theorem State.deliver_cmd (out : Memory) (n : Nat) : (s.deliver out n).cmd = s.cmd := rfl
@[simp] theorem State.deliver_ilen (out : Memory) (n : Nat) : (s.deliver out n).ilen = s.ilen := rfl
@[simp] theorem State.deliver_busy (out : Memory) (n : Nat) : (s.deliver out n).busy = false := rfl
@[simp] theorem State.deliver_done (out : Memory) (n : Nat) : (s.deliver out n).done = true := rfl
@[simp] theorem State.deliver_result (out : Memory) (n : Nat) : (s.deliver out n).result = s.result := rfl
@[simp] theorem State.deliver_inValid (out : Memory) (n : Nat) : (s.deliver out n).inValid = s.inValid := rfl
@[simp] theorem State.deliver_err (out : Memory) (n : Nat) : (s.deliver out n).err = s.err := rfl
@[simp] theorem State.deliver_olen (out : Memory) (n : Nat) : (s.deliver out n).olen = n := rfl
@[simp] theorem State.deliver_epos (out : Memory) (n : Nat) : (s.deliver out n).epos = s.epos := rfl
@[simp] theorem State.deliver_echar (out : Memory) (n : Nat) : (s.deliver out n).echar = s.echar := rfl
@[simp] theorem State.deliver_pad (out : Memory) (n : Nat) : (s.deliver out n).pad = s.pad := rfl
@[simp] theorem State.deliver_ibuf (out : Memory) (n : Nat) : (s.deliver out n).ibuf = s.ibuf := rfl
@[simp] theorem State.deliver_obuf (out : Memory) (n : Nat) : (s.deliver out n).obuf = out := rfl
@[simp] theorem State.deliver_lenw (out : Memory) (n : Nat) : (s.deliver out n).lenw = s.lenw := rfl
@[simp] theorem State.deliver_draws (out : Memory) (n : Nat) : (s.deliver out n).draws = s.draws + 1 := rfl
@[simp] theorem State.deliver_moves (out : Memory) (n : Nat) : (s.deliver out n).moves = s.moves := rfl
@[simp] theorem State.deliver_seen (out : Memory) (n : Nat) : (s.deliver out n).seen = s.seen := rfl

/-! `State.resetInput` -/

@[simp] theorem State.resetInput_cmd : s.resetInput.cmd = 0 := rfl
@[simp] theorem State.resetInput_ilen : s.resetInput.ilen = 0 := rfl
@[simp] theorem State.resetInput_busy : s.resetInput.busy = false := rfl
@[simp] theorem State.resetInput_done : s.resetInput.done = false := rfl
@[simp] theorem State.resetInput_result : s.resetInput.result = false := rfl
@[simp] theorem State.resetInput_inValid : s.resetInput.inValid = false := rfl
@[simp] theorem State.resetInput_err : s.resetInput.err = .ok := rfl
@[simp] theorem State.resetInput_olen : s.resetInput.olen = 0 := rfl
@[simp] theorem State.resetInput_epos : s.resetInput.epos = 0 := rfl
@[simp] theorem State.resetInput_echar : s.resetInput.echar = 0 := rfl
@[simp] theorem State.resetInput_pad : s.resetInput.pad = 0 := rfl
@[simp] theorem State.resetInput_ibuf : s.resetInput.ibuf = [] := rfl
@[simp] theorem State.resetInput_obuf : s.resetInput.obuf = [] := rfl
@[simp] theorem State.resetInput_lenw : s.resetInput.lenw = s.lenw := rfl
@[simp] theorem State.resetInput_draws : s.resetInput.draws = s.draws + 1 := rfl
@[simp] theorem State.resetInput_moves : s.resetInput.moves = s.moves := rfl
@[simp] theorem State.resetInput_seen : s.resetInput.seen = s.seen := rfl

/-! `State.popMove` -/

@[simp] theorem State.popMove_cmd : s.popMove.cmd = s.cmd := rfl
@[simp] theorem State.popMove_ilen : s.popMove.ilen = s.ilen := rfl
@[simp] theorem State.popMove_busy : s.popMove.busy = s.busy := rfl
@[simp] theorem State.popMove_done : s.popMove.done = s.done := rfl
@[simp] theorem State.popMove_result : s.popMove.result = s.result := rfl
@[simp] theorem State.popMove_inValid : s.popMove.inValid = s.inValid := rfl
@[simp] theorem State.popMove_err : s.popMove.err = s.err := rfl
@[simp] theorem State.popMove_olen : s.popMove.olen = s.olen := rfl
@[simp] theorem State.popMove_epos : s.popMove.epos = s.epos := rfl
@[simp] theorem State.popMove_echar : s.popMove.echar = s.echar := rfl
@[simp] theorem State.popMove_pad : s.popMove.pad = s.pad := rfl
@[simp] theorem State.popMove_ibuf : s.popMove.ibuf = s.ibuf := rfl
@[simp] theorem State.popMove_obuf : s.popMove.obuf = s.obuf := rfl
@[simp] theorem State.popMove_lenw : s.popMove.lenw = s.lenw := rfl
@[simp] theorem State.popMove_draws : s.popMove.draws = s.draws := rfl
@[simp] theorem State.popMove_moves : s.popMove.moves = s.moves.tail := rfl
@[simp] theorem State.popMove_seen : s.popMove.seen = s.seen := rfl

/-! `State.notePad`: only `PAD` can change. -/


@[simp] theorem State.notePad_cmd (p : Option Nat) : (s.notePad p).cmd = s.cmd := by cases p <;> rfl
@[simp] theorem State.notePad_ilen (p : Option Nat) : (s.notePad p).ilen = s.ilen := by cases p <;> rfl
@[simp] theorem State.notePad_busy (p : Option Nat) : (s.notePad p).busy = s.busy := by cases p <;> rfl
@[simp] theorem State.notePad_done (p : Option Nat) : (s.notePad p).done = s.done := by cases p <;> rfl
@[simp] theorem State.notePad_result (p : Option Nat) : (s.notePad p).result = s.result := by cases p <;> rfl
@[simp] theorem State.notePad_inValid (p : Option Nat) : (s.notePad p).inValid = s.inValid := by cases p <;> rfl
@[simp] theorem State.notePad_err (p : Option Nat) : (s.notePad p).err = s.err := by cases p <;> rfl
@[simp] theorem State.notePad_olen (p : Option Nat) : (s.notePad p).olen = s.olen := by cases p <;> rfl
@[simp] theorem State.notePad_epos (p : Option Nat) : (s.notePad p).epos = s.epos := by cases p <;> rfl
@[simp] theorem State.notePad_echar (p : Option Nat) : (s.notePad p).echar = s.echar := by cases p <;> rfl
@[simp] theorem State.notePad_ibuf (p : Option Nat) : (s.notePad p).ibuf = s.ibuf := by cases p <;> rfl
@[simp] theorem State.notePad_obuf (p : Option Nat) : (s.notePad p).obuf = s.obuf := by cases p <;> rfl
@[simp] theorem State.notePad_lenw (p : Option Nat) : (s.notePad p).lenw = s.lenw := by cases p <;> rfl
@[simp] theorem State.notePad_draws (p : Option Nat) : (s.notePad p).draws = s.draws := by cases p <;> rfl
@[simp] theorem State.notePad_moves (p : Option Nat) : (s.notePad p).moves = s.moves := by cases p <;> rfl
@[simp] theorem State.notePad_seen (p : Option Nat) : (s.notePad p).seen = s.seen := by cases p <;> rfl
@[simp] theorem State.notePad_none_pad : (s.notePad none).pad = s.pad := rfl
@[simp] theorem State.notePad_some_pad (p : Nat) : (s.notePad (some p)).pad = BitVec.ofNat 3 p := rfl

/-! `State.reset` -/

@[simp] theorem State.reset_cmd : State.reset.cmd = 0 := rfl
@[simp] theorem State.reset_ilen : State.reset.ilen = 0 := rfl
@[simp] theorem State.reset_busy : State.reset.busy = false := rfl
@[simp] theorem State.reset_done : State.reset.done = false := rfl
@[simp] theorem State.reset_result : State.reset.result = false := rfl
@[simp] theorem State.reset_inValid : State.reset.inValid = false := rfl
@[simp] theorem State.reset_err : State.reset.err = .ok := rfl
@[simp] theorem State.reset_olen : State.reset.olen = 0 := rfl
@[simp] theorem State.reset_epos : State.reset.epos = 0 := rfl
@[simp] theorem State.reset_echar : State.reset.echar = 0 := rfl
@[simp] theorem State.reset_pad : State.reset.pad = 0 := rfl
@[simp] theorem State.reset_ibuf : State.reset.ibuf = [] := rfl
@[simp] theorem State.reset_obuf : State.reset.obuf = [] := rfl
@[simp] theorem State.reset_lenw : State.reset.lenw = 16 := rfl
@[simp] theorem State.reset_draws : State.reset.draws = 0 := rfl
@[simp] theorem State.reset_moves : State.reset.moves = [] := rfl
@[simp] theorem State.reset_seen : State.reset.seen = [] := rfl

/-! The reads of `IBUF` and the capacities see only the fields they name. -/

@[simp] theorem State.readIbuf_setPad (p : Nat) : (s.setPad p).readIbuf = s.readIbuf := rfl
@[simp] theorem State.ibufMax_eq : s.ibufMax = Config.bufMax s.lenw := rfl
@[simp] theorem State.obufMax_eq : s.obufMax = Config.bufMax s.lenw := rfl

/-- A written cell reads as what was written, at every site (R116). -/
theorem State.readIbuf_of_lookup (site : Config.ReadSite) (i : Nat) (b : Byte) (h : s.ibuf.lookup i = some b) :
    s.readIbuf site i = b := by
  simp [State.readIbuf, h]

end Sys2Proof.Machine
end

