-- ==== Sys2Proof/Laws/Validate.lean ====
section
/-! SUPPORT. What the checks of CHKA, CHKW and CHKS answer. -/

namespace Sys2Proof.Machine

/-- The padding CHKA parses is 0 to 4 (R20). -/
theorem acceptCheck_pad_le {S : Config.ReadSite → Nat → Byte} {len p : Nat} (h : (acceptCheck S len).2 = some p) : p ≤ 4 := by
  unfold acceptCheck at h
  split at h
  · cases h
  · split at h
    · cases h
    · rename_i q hq
      cases h
      exact padDec_le hq

/-- A true answer of CHKA names a padding. -/
theorem acceptCheck_pad_of_true {S : Config.ReadSite → Nat → Byte} {len : Nat} (h : (acceptCheck S len).1 = true) :
    ∃ p, (acceptCheck S len).2 = some p := by
  unfold acceptCheck at h ⊢
  split at h
  · cases h
  · split at h
    · cases h
    · rename_i q hq
      exact ⟨q, rfl⟩

end Sys2Proof.Machine
end

