-- ==== Sys2Proof/Laws/Exec.lean ====
section
/-! SUPPORT. Everything a command can do, said once: which lengths an encoded text has and which cells it fills, and how each command
ends. -/

namespace Sys2Proof.Machine

/-! ## Lengths (spec rules R67, R78) -/

theorem nsym_padded (L : Nat) : nsym (L + padCalc L) = 8 * ((L + 4) / 5) := by
  simp only [nsym, padCalc]
  omega

theorem nsym_whole {L : Nat} (h : L % 5 = 0) : nsym L = 8 * (L / 5) := by
  simp only [nsym]
  omega

theorem needN_groups (g : Nat) : needN (8 * g) = if g = 0 then 2 else 1 + 10 * g := by
  unfold needN
  split <;> split <;> omega

theorem needS_groups (g : Nat) : needS (8 * g) = if g = 0 then 0 else 10 * g - 1 := by
  unfold needS
  split <;> split <;> omega

/-! ## The encoded texts -/

/-- The position of a symbol is inside the text. -/
theorem posN_lt_need {g k : Nat} (h : k < 8 * g) : posN k < needN (8 * g) := by
  rw [needN_groups, if_neg (by omega)]
  simp only [posN]
  omega

theorem posS_lt_need {g k : Nat} (h : k < 8 * g) : posS k < needS (8 * g) := by
  rw [needS_groups, if_neg (by omega)]
  simp only [posS]
  omega

/-- A cell of the normal form is the digit, a separator, or a symbol (R74, R78). -/
theorem normal_cell {g i : Nat} (h : i < needN (8 * g)) :
    i = 0 ∨ i = 1 ∨ (∃ k < 8 * g, i = posN k) ∨ (∃ k < 8 * g, 0 < k ∧ k % 4 = 0 ∧ i = posN k - 1) := by
  rw [needN_groups] at h
  by_cases h2 : i < 2
  · omega
  · rw [if_neg (by split at h <;> omega)] at h
    by_cases h4 : (i - 2) % 5 < 4
    · exact .inr (.inr (.inl ⟨4 * ((i - 2) / 5) + (i - 2) % 5, by omega, by simp only [posN]; omega⟩))
    · exact .inr (.inr (.inr ⟨4 * ((i - 2) / 5) + 4, by omega, by omega, by omega, by simp only [posN]; omega⟩))

/-- A cell of the strict form is a separator or a symbol (R74, R78). -/
theorem strict_cell {g i : Nat} (h : i < needS (8 * g)) :
    (∃ k < 8 * g, i = posS k) ∨ (∃ k < 8 * g, 0 < k ∧ k % 4 = 0 ∧ i = posS k - 1) := by
  rw [needS_groups] at h
  rw [if_neg (by split at h <;> omega)] at h
  by_cases h4 : i % 5 < 4
  · exact .inl ⟨4 * (i / 5) + i % 5, by omega, by simp only [posS]; omega⟩
  · exact .inr ⟨4 * (i / 5) + 4, by omega, by omega, by omega, by simp only [posS]; omega⟩

variable (s : State)

theorem encText_digit : s.encText.lookup 0 = some (padEnc (padCalc s.ilen)) := by
  unfold State.encText
  rw [lookup_writeSymbols_other (fun k _ => by simp only [posN]; omega) (fun k _ h0 _ => by simp only [posN]; omega)]
  simp [Memory.lookup_write]

theorem encText_sep_one : s.encText.lookup 1 = some sep := by
  unfold State.encText
  rw [lookup_writeSymbols_other (fun k _ => by simp only [posN]; omega) (fun k _ h0 h4 => by simp only [posN]; omega)]
  simp

theorem encText_symbol {k : Nat} (hk : k < nsym (s.ilen + padCalc s.ilen)) :
    s.encText.lookup (posN k) = some (val2sym (packSym (s.payload k) s.ilen k)) :=
  lookup_writeSymbols_symbol spread_posN hk

theorem encText_sep {k : Nat} (hk : k < nsym (s.ilen + padCalc s.ilen)) (h0 : 0 < k) (h4 : k % 4 = 0) :
    s.encText.lookup (posN k - 1) = some sep :=
  lookup_writeSymbols_sep spread_posN hk h0 h4

/-- Nothing is written past the text. -/
theorem encText_beyond {i : Nat} (hi : needN (nsym (s.ilen + padCalc s.ilen)) ≤ i) : s.encText.lookup i = none := by
  rw [nsym_padded] at hi
  have h2 : 2 ≤ i := by
    rw [needN_groups] at hi
    split at hi <;> omega
  unfold State.encText
  rw [nsym_padded, lookup_writeSymbols_other (fun k hk => by have := posN_lt_need hk; omega)
    (fun k hk _ _ => by have := posN_lt_need hk; omega)]
  simp [Memory.lookup_write, show (1 : Nat) ≠ i by omega, show (0 : Nat) ≠ i by omega]

theorem encText_fixed {i : Nat} (hi : i < needN (nsym (s.ilen + padCalc s.ilen))) : (s.encText.lookup i).isSome = true := by
  rw [nsym_padded] at hi
  rcases normal_cell hi with rfl | rfl | ⟨k, hk, rfl⟩ | ⟨k, hk, h0, h4, rfl⟩
  · rw [encText_digit]; rfl
  · rw [encText_sep_one]; rfl
  · rw [encText_symbol _ (by rwa [nsym_padded])]; rfl
  · rw [encText_sep _ (by rwa [nsym_padded]) h0 h4]; rfl

theorem wf_encText {cap : Nat} (h : needN (nsym (s.ilen + padCalc s.ilen)) ≤ cap) : s.encText.wf cap = true := by
  rw [nsym_padded] at h
  have h2 : 2 ≤ cap := by
    rw [needN_groups] at h
    split at h <;> omega
  unfold State.encText
  apply wf_writeSymbols
  · exact Memory.wf_write _ (Memory.wf_write _ rfl (by omega)) (by omega)
  · intro k hk
    rw [nsym_padded] at hk
    exact (posN_lt_need hk).trans_le h

theorem encsText_symbol {k : Nat} (hk : k < nsym s.ilen) :
    s.encsText.lookup (posS k) = some (val2sym (packSym (s.payload k) s.ilen k)) :=
  lookup_writeSymbols_symbol spread_posS hk

theorem encsText_sep {k : Nat} (hk : k < nsym s.ilen) (h0 : 0 < k) (h4 : k % 4 = 0) :
    s.encsText.lookup (posS k - 1) = some sep :=
  lookup_writeSymbols_sep spread_posS hk h0 h4

theorem encsText_beyond {i : Nat} (h5 : s.ilen % 5 = 0) (hi : needS (nsym s.ilen) ≤ i) : s.encsText.lookup i = none := by
  rw [nsym_whole h5] at hi
  unfold State.encsText
  rw [nsym_whole h5, lookup_writeSymbols_other (fun k hk => by have := posS_lt_need hk; omega)
    (fun k hk _ _ => by have := posS_lt_need hk; omega)]
  rfl

theorem encsText_fixed {i : Nat} (h5 : s.ilen % 5 = 0) (hi : i < needS (nsym s.ilen)) : (s.encsText.lookup i).isSome = true := by
  rw [nsym_whole h5] at hi
  rcases strict_cell hi with ⟨k, hk, rfl⟩ | ⟨k, hk, h0, h4, rfl⟩
  · rw [encsText_symbol _ (by rwa [nsym_whole h5])]; rfl
  · rw [encsText_sep _ (by rwa [nsym_whole h5]) h0 h4]; rfl

theorem wf_encsText {cap : Nat} (h5 : s.ilen % 5 = 0) (h : needS (nsym s.ilen) ≤ cap) : s.encsText.wf cap = true := by
  rw [nsym_whole h5] at h
  apply wf_writeSymbols rfl
  intro k hk
  rw [nsym_whole h5] at hk
  exact (posS_lt_need hk).trans_le h

/-! ## How a command ends -/

/-- How a command that started in `s` can end, `s'` being `s` with `PAD` perhaps written: a fault, a character fault at an index
of the input, an answer, or an output that fits and fills its cells. -/
inductive EndsIn (s s' : State) : State → Prop
  | fault (e : ErrCode) (h1 : e ≠ .ok) (h2 : e ≠ .pcons) (h3 : e ≠ .chr) : EndsIn s s' (s'.raise e)
  | badChar (i : Nat) (c : Byte) (h : i < s.ilen) : EndsIn s s' (s'.raiseChr i c)
  | answer (b : Bool) : EndsIn s s' (s'.answer b)
  | output (m : Memory) (n : Nat) (hn : n ≤ max s.ilen s.obufMax) (hw : ∀ cap, n ≤ cap → m.wf cap = true)
      (hf : ∀ i < n, (m.lookup i).isSome = true) (hb : ∀ i, n ≤ i → m.lookup i = none) : EndsIn s s' (s'.deliver m n)

/-- DEC and DECS after their checks (R81, R82, R84). -/
theorem decodeData_ends (s s' : State) {xs : List Nat} (cut : Nat) (hl : xs.length ≤ s.ilen) (hx : ∀ x ∈ xs, x < s.ilen) :
    EndsIn s s' (s'.decodeData xs cut) := by
  rcases unpackAll_cases (S := s'.readIbuf .data) xs with ⟨W, h, hW⟩ | ⟨e, h, he⟩
  · rw [State.decodeData, h]
    have hlen : (W.take (nbytes xs.length - cut)).length = nbytes xs.length - cut := by
      rw [List.length_take, hW]
      omega
    refine .output _ _ ?_ (fun cap hc => Memory.wf_ofBytes (by omega)) (fun i hi => ?_) (fun i hi => ?_)
    · have : nbytes xs.length ≤ xs.length := by simp only [nbytes]; omega
      omega
    · rw [Memory.lookup_ofBytes, List.getElem?_eq_getElem (by omega)]
      rfl
    · rw [Memory.lookup_ofBytes, List.getElem?_eq_none (by omega)]
  · rw [State.decodeData, h]
    exact .badChar _ _ (hx _ he)

/-- Every command ends, and this is how (R75, R96, R111). -/
theorem exec_ends (i : Instr) (s : State) :
    ∃ s' t, exec i s = .next t ∧ (s' = s ∨ ∃ p ≤ 4, s' = s.setPad p) ∧ EndsIn s s' t := by
  cases i with
  | rsvd => exact ⟨s, _, rfl, .inl rfl, .fault _ (by simp) (by simp) (by simp)⟩
  | enc =>
    simp only [exec, execEnc]
    split
    · exact ⟨s, _, rfl, .inl rfl, .fault _ (by simp) (by simp) (by simp)⟩
    · split
      · exact ⟨_, _, rfl, .inr ⟨_, padCalc_le _, rfl⟩, .fault _ (by simp) (by simp) (by simp)⟩
      · exact ⟨_, _, rfl, .inr ⟨_, padCalc_le _, rfl⟩, .output _ _ (by omega) (fun _ h => wf_encText s h) (fun _ h => encText_fixed s h)
          (fun _ h => encText_beyond s h)⟩
  | encs =>
    simp only [exec, execEncs]
    split
    · exact ⟨s, _, rfl, .inl rfl, .fault _ (by simp) (by simp) (by simp)⟩
    · split
      · exact ⟨s, _, rfl, .inl rfl, .fault _ (by simp) (by simp) (by simp)⟩
      · rename_i h5
        have h5 : s.ilen % 5 = 0 := not_not.1 h5
        split
        · exact ⟨s, _, rfl, .inl rfl, .fault _ (by simp) (by simp) (by simp)⟩
        · exact ⟨s, _, rfl, .inl rfl, .output _ _ (by omega) (fun _ h => wf_encsText s h5 h) (fun _ h => encsText_fixed s h5 h)
            (fun _ h => encsText_beyond s h5 h)⟩
  | dec =>
    simp only [exec, execDec]
    split
    · exact ⟨s, _, rfl, .inl rfl, .fault _ (by simp) (by simp) (by simp)⟩
    · split
      · exact ⟨s, _, rfl, .inl rfl, .fault _ (by simp) (by simp) (by simp)⟩
      · rename_i x xs hX
        have hl : xs.length ≤ s.ilen := by
          have := length_nonsep_le (S := s.readIbuf .scan) (len := s.ilen)
          rw [hX, List.length_cons] at this
          omega
        have hx : ∀ y ∈ xs, y < s.ilen := fun y hy => (mem_nonsep.1 (hX ▸ List.mem_cons_of_mem x hy)).1
        split
        · exact ⟨s, _, rfl, .inl rfl, .fault _ (by simp) (by simp) (by simp)⟩
        · rename_i p hp
          have hp := padDec_le hp
          split
          · exact ⟨_, _, rfl, .inr ⟨p, hp, rfl⟩, .fault _ (by simp) (by simp) (by simp)⟩
          · split
            · exact ⟨_, _, rfl, .inr ⟨p, hp, rfl⟩, .fault _ (by simp) (by simp) (by simp)⟩
            · exact ⟨_, _, rfl, .inr ⟨p, hp, rfl⟩, decodeData_ends s _ p hl hx⟩
  | decs =>
    simp only [exec, execDecs]
    split
    · exact ⟨s, _, rfl, .inl rfl, .fault _ (by simp) (by simp) (by simp)⟩
    · split
      · exact ⟨s, _, rfl, .inl rfl, .fault _ (by simp) (by simp) (by simp)⟩
      · exact ⟨s, _, rfl, .inl rfl, decodeData_ends s _ 0 length_nonsep_le (fun x hx => (mem_nonsep.1 hx).1)⟩
  | chkw =>
    simp only [exec, execChkw]
    split
    · exact ⟨s, _, rfl, .inl rfl, .answer _⟩
    · refine ⟨_, _, rfl, ?_, .answer _⟩
      cases h : (acceptCheck s.readIbuf s.ilen).2 with
      | none => exact .inl rfl
      | some p => exact .inr ⟨p, acceptCheck_pad_le h, rfl⟩
  | chka =>
    simp only [exec, execChka]
    split
    · exact ⟨s, _, rfl, .inl rfl, .answer _⟩
    · refine ⟨_, _, rfl, ?_, .answer _⟩
      cases h : (acceptCheck s.readIbuf s.ilen).2 with
      | none => exact .inl rfl
      | some p => exact .inr ⟨p, acceptCheck_pad_le h, rfl⟩
  | chks =>
    simp only [exec, execChks]
    split
    · exact ⟨s, _, rfl, .inl rfl, .answer _⟩
    · exact ⟨s, _, rfl, .inl rfl, .answer _⟩

end Sys2Proof.Machine
end

