-- ==== Sys2Proof/Laws/HostPort.lean ====
section
/-! SUPPORT. What each host access can do, said once. -/

namespace Sys2Proof.Machine

/-- A write of a register while `BUSY = 1` does nothing (R112). -/
theorem State.hostWriteReg_of_busy {s : State} (h : s.busy = true) (r : HostReg) (v : Nat) : s.hostWriteReg r v = s := by
  simp [State.hostWriteReg, h]

/-- A write of a cell while `BUSY = 1` does nothing (R112). -/
theorem State.hostWriteCell_of_busy {s : State} (h : s.busy = true) (b : Buffer) (i : Nat) (v : Byte) :
    s.hostWriteCell b i v = s := by
  cases b <;> simp [State.hostWriteCell, h]

/-- A write of `IBUF` while `BUSY = 0` (R21). -/
theorem State.hostWriteCell_of_idle {s : State} (h : s.busy = false) (i : Nat) (v : Byte) :
    s.hostWriteCell .ibuf i v = { s with ibuf := s.ibuf.write i v } := by
  simp [State.hostWriteCell, h]

/-- The loop of `MOVO` changes `IBUF` only. -/
theorem State.copyOutput_eq (s : State) (n : Nat) : s.copyOutput n = { s with ibuf := (s.copyOutput n).ibuf } := by
  induction n with
  | zero => rfl
  | succ n ih =>
    simp only [State.copyOutput, State.hostWriteCell]
    rw [ih]
    split <;> rfl

/-- The loop of `MOVO` while `BUSY = 0`, cell by cell (R47). -/
theorem State.lookup_copyOutput {s : State} (h : s.busy = false) (n a : Nat) :
    (s.copyOutput n).ibuf.lookup a = if a < n then some (s.hostReadCell .obuf a) else s.ibuf.lookup a := by
  induction n with
  | zero => rfl
  | succ n ih =>
    have hb : (s.copyOutput n).busy = false := by rw [State.copyOutput_eq]; exact h
    rw [State.copyOutput, State.hostWriteCell_of_idle hb, Memory.lookup_write, ih]
    by_cases ha : n = a
    · subst ha
      rw [if_pos rfl, if_pos (by omega)]
    · rw [if_neg ha]
      by_cases hn : a < n
      · rw [if_pos hn, if_pos (by omega)]
      · rw [if_neg hn, if_neg (by omega)]

/-- The loop of `MOVO` keeps the canonical form. -/
theorem State.wf_copyOutput {s : State} {cap : Nat} (h : s.ibuf.wf cap = true) (n : Nat) (hn : n ≤ cap) :
    (s.copyOutput n).ibuf.wf cap = true := by
  induction n with
  | zero => exact h
  | succ n ih =>
    have ih := ih (by omega)
    simp only [State.copyOutput, State.hostWriteCell]
    split
    · exact ih
    · exact Memory.wf_write _ ih (by omega)

/-- A host access has a next state but for a cell the buffer does not have, and `MOVO` of an output longer than `IBUF` (log 5). -/
theorem hostAct_cases (a : HostAction) (s : State) :
    (∃ t, hostAct a s = .next t) ∨
      (∃ b i, (a = .readCell b i ∨ ∃ v, a = .writeCell b i v) ∧ s.bufMax b ≤ i ∧ hostAct a s = .fault (.noSuchCell b i)) ∨
      (a = .movo ∧ s.busy = false ∧ s.ibufMax < s.olen) := by
  cases a with
  | writeReg r v => exact .inl ⟨_, rfl⟩
  | readReg r => exact .inl ⟨_, rfl⟩
  | reset => exact .inl ⟨_, rfl⟩
  | writeCell b i v =>
    by_cases h : i < s.bufMax b
    · exact .inl ⟨_, if_pos h⟩
    · exact .inr (.inl ⟨b, i, .inr ⟨v, rfl⟩, by omega, if_neg h⟩)
  | readCell b i =>
    by_cases h : i < s.bufMax b
    · exact .inl ⟨_, if_pos h⟩
    · exact .inr (.inl ⟨b, i, .inl rfl, by omega, if_neg h⟩)
  | movo =>
    cases hb : s.busy with
    | true => exact .inl ⟨_, if_pos hb⟩
    | false =>
      by_cases h : s.olen > s.ibufMax
      · exact .inr (.inr ⟨rfl, rfl, h⟩)
      · exact .inl ⟨_, by simp only [hostAct, State.moveOutput, hb, if_neg h]; rfl⟩

/-- A character with a code of one byte is that byte (R50). -/
theorem charCode_of_le {c : Char} (h : c.toNat ≤ 0xFF) : charCode c = BitVec.ofNat 8 c.toNat := if_pos h

/-- Any other character is a free byte (log 12). -/
theorem charCode_of_gt {c : Char} (h : 0xFF < c.toNat) : charCode c = Config.wideCharCode c.toNat := if_neg (by omega)

/-- A text has one byte for each of its characters (R9). -/
@[simp] theorem length_codes (text : List Char) : (codes text).length = text.length := List.length_map ..

end Sys2Proof.Machine
end

