-- ==== Sys2Proof/Laws/PerInstr.lean ====
section
/-! SUPPORT. Statements made per command, one lemma per constructor. -/

namespace Sys2Proof.Laws.CommandWord

/-- The command has no operand that could be ill-formed, its word fits the three bits of `CMD`, and a byte that holds the word
reads as the command (R42, R43, R46). -/
def Statement (i : Instr) : Prop :=
  i.wellFormed = true ∧ (encode i).toNat < 8 ∧ decodeTableWord 8 (encode i).toNat = some i

theorem rsvd : Statement .rsvd := ⟨rfl, by decide, by decide⟩
theorem enc : Statement .enc := ⟨rfl, by decide, by decide⟩
theorem encs : Statement .encs := ⟨rfl, by decide, by decide⟩
theorem dec : Statement .dec := ⟨rfl, by decide, by decide⟩
theorem decs : Statement .decs := ⟨rfl, by decide, by decide⟩
theorem chkw : Statement .chkw := ⟨rfl, by decide, by decide⟩
theorem chka : Statement .chka := ⟨rfl, by decide, by decide⟩
theorem chks : Statement .chks := ⟨rfl, by decide, by decide⟩

end Sys2Proof.Laws.CommandWord
end

