-- ==== Sys2Proof/Tests/Slice0.lean ====
section
/-! SUPPORT. Tests, each on one step of a small state; every expected value is from spec/95_test_vectors.md or the rule named. Then the
witnesses of the statements: for each statement with hypotheses, concrete states and operands that meet them. -/

namespace Sys2Proof.Tests

open Sys2Proof.Machine

/-- The next state, if there is one. -/
def nextOf : Host.Outcome State Fault Refusal → Option State
  | .next t => some t
  | .fault _ => none
  | .refused _ => none

/-- Idle, with the input `bs` loaded. -/
def loaded (bs : List Byte) : State :=
  { State.reset with inValid := true, ilen := bs.length, ibuf := Memory.ofBytes bs }

/-- A command has been started on the input `bs`. -/
def begun (bs : List Byte) : State := (loaded bs).acceptStart

/-- `OLEN`, the output bytes, `PAD` and `STATUS` after a command. -/
def outputOf (o : Host.Outcome State Fault Refusal) : Option (Nat × List Byte × BitVec 3 × BitVec 7) :=
  (nextOf o).map (fun t => (t.olen, t.obuf.map Prod.snd, t.pad, t.status))

/-- `STATUS`, `EPOS`, `ECHAR`, `PAD` and whether `OBUF` lists anything, after a command. -/
def faultOf (o : Host.Outcome State Fault Refusal) : Option (BitVec 7 × Nat × Byte × BitVec 3 × Bool) :=
  (nextOf o).map (fun t => (t.status, t.epos, t.echar, t.pad, t.obuf.isEmpty && t.olen == 0))

/-- `RESULT` and `PAD` after a command, `none` if `ERR` is set. -/
def answerOf (o : Host.Outcome State Fault Refusal) : Option (Bool × BitVec 3) :=
  ((nextOf o).filter (fun t => t.err == .ok)).map (fun t => (t.result, t.pad))

/-! ## Well-formedness: what each check refuses -/

theorem test_write_past_ibuf_is_ill_formed : (HostAction.writeCell .ibuf 15 0).wellFormed 4 = false := by decide
theorem test_write_last_of_ibuf_is_well_formed : (HostAction.writeCell .ibuf 14 0).wellFormed 4 = true := by decide
theorem test_read_past_obuf_is_ill_formed : (HostAction.readCell .obuf 65535).wellFormed 16 = false := by decide
theorem test_turn_of_ill_formed_action : (Move.host (.readCell .ibuf 15)).wellFormed 4 = false := by decide

/-! ## Decoding (R43, each word written out) -/

theorem test_decode_rsvd : decodeTableWord 8 0b00000000 = some .rsvd := by decide
theorem test_decode_enc : decodeTableWord 8 0b00000001 = some .enc := by decide
theorem test_decode_encs : decodeTableWord 8 0b00000010 = some .encs := by decide
theorem test_decode_dec : decodeTableWord 8 0b00000011 = some .dec := by decide
theorem test_decode_decs : decodeTableWord 8 0b00000100 = some .decs := by decide
theorem test_decode_chkw : decodeTableWord 8 0b00000101 = some .chkw := by decide
theorem test_decode_chka : decodeTableWord 8 0b00000110 = some .chka := by decide
theorem test_decode_chks : decodeTableWord 8 0b00000111 = some .chks := by decide

/-- Bits above `CMD[2:0]` are ignored (R12). -/
theorem test_decode_ignores_high_bits : decodeTableWord 8 0b11111001 = some .enc := by decide

/-! ## Commands -/

/-- X2: `STATUS = 0x72`. -/
theorem test_rsvd : faultOf (exec .rsvd State.reset.acceptStart) = some (0x72, 0, 0, 0, true) := by decide

/-- E11: two groups, padding 4: `"4-91jp-rv3f-4400-0000"`. -/
theorem test_enc_two_groups : outputOf (exec .enc (begun [0x48, 0x65, 0x6C, 0x6C, 0x6F, 0x21])) =
    some (21, codes ['4', '-', '9', '1', 'j', 'p', '-', 'r', 'v', '3', 'f', '-', '4', '4', '0', '0', '-', '0', '0', '0', '0'], 4,
      0x0A) := by decide

/-- P5 step 2: with `LENW = 4`, six bytes need 21 cells: `E_CAP`, `PAD = 4`. -/
theorem test_enc_capacity : faultOf (exec .enc { begun [255, 255, 255, 255, 255, 255] with lenw := 4 }) =
    some (0x6A, 0, 0, 4, true) := by decide

/-- E17: `"28t5-cy4t"`. -/
theorem test_encs : outputOf (exec .encs (begun [0x12, 0x34, 0x56, 0x78, 0x9A])) =
    some (9, codes ['2', '8', 't', '5', '-', 'c', 'y', '4', 't'], 0, 0x0A) := by decide

/-- E20: four bytes: `E_LEN`. -/
theorem test_encs_length : faultOf (exec .encs (begun [1, 2, 3, 4])) = some (0x2A, 0, 0, 0, true) := by decide

/-- D24: `"-0zzzz-zzzz"`, a leading separator. -/
theorem test_dec : outputOf (exec .dec (begun (codes ['-', '0', 'z', 'z', 'z', 'z', '-', 'z', 'z', 'z', 'z']))) =
    some (5, [255, 255, 255, 255, 255], 0, 0x0A) := by decide

/-- S7 in short: `'o'` at index 2 is reported, with separators counted: `STATUS = 0x4A`, `EPOS = 2`, `ECHAR = 0x6F`, `PAD = 4`. -/
theorem test_dec_bad_char : faultOf (exec .dec (begun (codes ['4', '-', 'o', 'u', 'g', 'a', '-', 'e', '0', '7', 'x']))) =
    some (0x4A, 2, 0x6F, 4, true) := by decide

/-- D49: `"000z"` gives `00 01`. -/
theorem test_decs_half_group : outputOf (exec .decs (begun (codes ['0', '0', '0', 'z']))) = some (2, [0, 1], 0, 0x0A) := by decide

/-- D58: two bad characters, the first is reported. -/
theorem test_decs_bad_char :
    faultOf (exec .decs (begun (codes ['0', '0', '0', '0', '-', '0', '0', '0', 'l', '-', 'i', '0', '0', '0']))) =
      some (0x4A, 8, 0x6C, 0, true) := by decide

/-- Section 5: `"1-zzzz-zz80"` is well-formed. -/
theorem test_chkw : answerOf (exec .chkw (begun (codes ['1', '-', 'z', 'z', 'z', 'z', '-', 'z', 'z', '8', '0']))) =
    some (true, 1) := by decide

/-- Section 5: `"0-zzzzzzzz"` is acceptable and not well-formed. -/
theorem test_chkw_cadence : answerOf (exec .chkw (begun (codes ['0', '-', 'z', 'z', 'z', 'z', 'z', 'z', 'z', 'z']))) =
    some (false, 0) := by decide

/-- Section 5: `"0-zz-zz-zz-zz-"` is acceptable. -/
theorem test_chka : answerOf (exec .chka (begun (codes ['0', '-', 'z', 'z', '-', 'z', 'z', '-', 'z', 'z', '-', 'z', 'z', '-']))) =
    some (true, 0) := by decide

/-- Section 5: `"3-0418-0000"`, 8 is not allowed for padding 3. -/
theorem test_chka_ending : answerOf (exec .chka (begun (codes ['3', '-', '0', '4', '1', '8', '-', '0', '0', '0', '0']))) =
    some (false, 3) := by decide

/-- Section 5: the empty string is strict. -/
theorem test_chks_empty : answerOf (exec .chks (begun [])) = some (true, 0) := by decide

/-- Section 5: `"zzzz-"`, a trailing separator. -/
theorem test_chks_trailing : answerOf (exec .chks (begun (codes ['z', 'z', 'z', 'z', '-']))) = some (false, 0) := by decide

/-! ## The host port -/

/-- X6: `CTRL = 3`, `INVAL` first, then `START`. -/
theorem test_ctrl_both_bits :
    (nextOf (hostAct (.writeReg .ctrl 3) (loaded [1, 2, 3, 4]))).map (fun t => (t.inValid, t.busy, t.ilen)) =
      some (false, true, 4) := by decide

/-- X12: a write of `ILEN` while `BUSY = 1` has no effect. -/
theorem test_locked_ilen : (nextOf (hostAct (.writeReg .ilen 9) (begun [1]))).map State.ilen = some 1 := by decide

/-- Section 1, S8 start: `STATUS = 0x08` once an input is declared (P1 step 1). -/
theorem test_status_loaded : (loaded [0x7E]).hostReadReg .status = 0x08 := by decide

/-- `ILEN` keeps its low `LENW` bits (R12). -/
theorem test_ilen_width :
    (nextOf (hostAct (.writeReg .ilen 65537) State.reset)).map (fun t => (t.ilen, t.inValid)) = some (1, true) := by decide

/-- There is no cell 65535 when `LENW = 16` (R21, log 5). -/
theorem test_no_such_cell : nextOf (hostAct (.writeCell .ibuf 65535 0) State.reset) = none := by decide

/-- `MOVO` (P1 step 3 in short). -/
theorem test_movo :
    (nextOf (hostAct .movo { State.reset with olen := 2, obuf := Memory.ofBytes [0x30, 0x2D] })).map (fun t => (t.ilen, t.ibuf)) =
      some (2, [(0, 0x30), (1, 0x2D)]) := by decide

/-- The first step after a command word is placed on the reset state runs it: X3, `ENC` without an input is `STATUS = 0x12`. -/
theorem test_placed_word_runs : (nextOf (step (State.reset.withFetchWord 8 1))).map State.status = some 0x12 := by decide

/-! ## Functional units -/

/-- F1: `12 34 56 78 9A` packs to 2, 8, 26, 5, 12, 30, 4, 26. -/
theorem test_pack : (List.range 8).map (packSym (fun j => [0x12, 0x34, 0x56, 0x78, 0x9A].getD j 0) 5) = [2, 8, 26, 5, 12, 30, 4, 26] := by
  decide

/-- `POSN` and `POSS` (R74): 2, 5, 7, 10 and 0, 3, 5, 8. -/
theorem test_positions : [0, 3, 4, 7].map posN = [2, 5, 7, 10] ∧ [0, 3, 4, 7].map posS = [0, 3, 5, 8] := by decide

/-! ## Witnesses: states and operands that meet the hypotheses of each statement -/

/-- What a command leaves. -/
def after (i : Instr) (s : State) : State := (nextOf (exec i s)).getD State.reset

theorem exec_eq_after (i : Instr) (s : State) : exec i s = .next (after i s) := by
  obtain ⟨_, t, h, _⟩ := exec_ends i s
  simp [after, nextOf, h]

/-- `"4-fr00-0000"`, the text of the payload `7E` (S2). -/
def text7E : List Byte := codes ['4', '-', 'f', 'r', '0', '0', '-', '0', '0', '0', '0']

/-- `"0000-0000"` (S6). -/
def textZeros : List Byte := codes ['0', '0', '0', '0', '-', '0', '0', '0', '0']

/-- StepRunsTheCommandInCmd: the three ways the core gets the turn. -/
theorem witness_core_has_the_turn :
    (begun []).busy = true ∧ (begun []).moves = [] ∧
      (let s := { begun [] with moves := [.core] }; s.busy = true ∧ s.moves = .core :: []) ∧
      (let s := { begun [] with moves := [.await, .core] }; s.busy = true ∧ s.moves = .await :: [.core] ∧ s.done = false) := by decide

/-- IdleCoreKeepsItsState. -/
theorem witness_idle : State.reset.busy = false ∧ State.reset.moves = [] ∧
    (let s := { State.reset with moves := [.core, .await] }; s.busy = false ∧ s.moves = .core :: [.await]) := by decide

/-- RunTakesTheCommandToDone. -/
theorem witness_run : (let s := { loaded [0x7E] with moves := run .enc ++ movo }; s.busy = false ∧ s.moves = run .enc ++ movo) := by
  decide

/-- CommandsKeepWhatTheyDoNotWrite: a command of each kind of its clauses. -/
theorem witness_frames :
    exec .rsvd (begun []) = .next (after .rsvd (begun [])) ∧ (after .rsvd (begun [])).err ≠ .chr ∧
      Instr.rsvd ∉ [Instr.chkw, .chka, .chks] ∧ Instr.rsvd ∉ [Instr.dec, .decs] ∧ Instr.rsvd ∉ [Instr.enc, .dec, .chkw, .chka] ∧
      exec .chks (begun []) = .next (after .chks (begun [])) ∧ Instr.chks ∈ [Instr.chkw, .chka, .chks] := by
  refine ⟨exec_eq_after _ _, by decide, by decide, by decide, by decide, exec_eq_after _ _, by decide⟩

/-- CommandsDependOnTheirInputOnly: the second state holds another old output and one byte more past `ILEN`. -/
theorem witness_same_input :
    let s := begun [0x7E]
    let u := { begun [0x7E] with ibuf := Memory.ofBytes [0x7E, 0x11], obuf := Memory.ofBytes [0x22], cmd := 3 }
    s.started ∧ u.started ∧ s.lenw = u.lenw ∧ s.inValid = u.inValid ∧ s.ilen = u.ilen ∧
      (∀ a < s.ilen, (s.ibuf.lookup a).isSome = true ∧ s.ibuf.lookup a = u.ibuf.lookup a) ∧
      exec .enc s = .next (after .enc s) ∧ exec .enc u = .next (after .enc u) := by
  refine ⟨by decide, by decide, rfl, rfl, rfl, by decide, exec_eq_after _ _, exec_eq_after _ _⟩

/-- FaultLeavesNoOutput: a fault without and one with a position. -/
theorem witness_faults :
    exec .rsvd (begun []) = .next (after .rsvd (begun [])) ∧ (begun []).err = .ok ∧ (after .rsvd (begun [])).err ≠ .ok ∧
      (after .rsvd (begun [])).err ≠ .chr ∧
      (let s := begun (codes ['z', 'z', 'z', 'o']);
        exec .decs s = .next (after .decs s) ∧ s.err = .ok ∧ (after .decs s).err = .chr) := by
  refine ⟨exec_eq_after _ _, by decide, by decide, by decide, exec_eq_after _ _, by decide, by decide⟩

/-- PaddingConsistencyCodeIsNeverWritten: the code is there after a command only if it was there before. -/
theorem witness_code_five :
    let s := { begun [] with err := .pcons }
    exec .chks s = .next (after .chks s) ∧ (after .chks s).err = .pcons := by
  refine ⟨exec_eq_after _ _, by decide⟩

/-- ReservedCommandFaultsAtOnce, PredicatesNeverFault. -/
theorem witness_started : State.reset.acceptStart.started ∧ (begun [1, 2]).started ∧ State.reset.acceptStart.inValid = false := by decide

/-- EncWritesTheNormalForm: absent input; with `LENW = 4` six bytes do not fit and five do; nothing at all; and with `LENW = 16` the
edge 32766 and 32765 (R76). -/
theorem witness_enc :
    State.reset.acceptStart.started ∧ State.reset.acceptStart.inValid = false ∧
      (let s := { begun [1, 2, 3, 4, 5, 6] with lenw := 4 }; s.started ∧ s.inValid = true ∧ 1 + 10 * ((s.ilen + 4) / 5) > s.obufMax) ∧
      (let s := { begun [1, 2, 3, 4, 5] with lenw := 4 }; s.started ∧ s.inValid = true ∧ 1 + 10 * ((s.ilen + 4) / 5) ≤ s.obufMax) ∧
      (let s := begun []; s.started ∧ s.inValid = true ∧ (s.ilen + 4) / 5 = 0 ∧ 2 ≤ s.obufMax) ∧
      (let s := { begun [] with ilen := 32766 }; s.started ∧ s.inValid = true ∧ 1 + 10 * ((s.ilen + 4) / 5) > s.obufMax) ∧
      (let s := { begun [] with ilen := 32765 }; s.started ∧ s.inValid = true ∧ 1 + 10 * ((s.ilen + 4) / 5) ≤ s.obufMax) := by
  decide

/-- EncsWritesTheStrictForm: absent input, a length that is no multiple of 5, with `LENW = 4` ten bytes do not fit and five do,
nothing at all. -/
theorem witness_encs :
    State.reset.acceptStart.started ∧ State.reset.acceptStart.inValid = false ∧
      (let s := begun [1, 2, 3, 4]; s.started ∧ s.inValid = true ∧ s.ilen % 5 ≠ 0) ∧
      (let s := { begun [] with lenw := 4, ilen := 10 }; s.started ∧ s.inValid = true ∧ s.ilen % 5 = 0 ∧ 10 * (s.ilen / 5) - 1 > s.obufMax) ∧
      (let s := { begun [1, 2, 3, 4, 5] with lenw := 4 }; s.started ∧ s.inValid = true ∧ s.ilen % 5 = 0 ∧ 10 * (s.ilen / 5) - 1 ≤ s.obufMax) ∧
      (let s := begun []; s.started ∧ s.inValid = true ∧ s.ilen % 5 = 0 ∧ s.ilen / 5 = 0 ∧ 0 ≤ s.obufMax) := by
  decide

/-- DecReturnsThePayload, the faults before the characters: absent, no character, no padding digit, a bad length, a digit alone. -/
theorem witness_dec_early :
    State.reset.acceptStart.started ∧ State.reset.acceptStart.inValid = false ∧
      (let s := begun [0x2D]; s.started ∧ s.inValid = true ∧ nonsep (s.readIbuf .scan) s.ilen = []) ∧
      (let s := begun [0x35]; s.started ∧ s.inValid = true ∧ nonsep (s.readIbuf .scan) s.ilen = [0] ∧ padDec (s.readIbuf .digit 0) = none) ∧
      (let s := begun [0x30, 0x7A]; s.started ∧ s.inValid = true ∧ nonsep (s.readIbuf .scan) s.ilen = 0 :: [1] ∧
        padDec (s.readIbuf .digit 0) = some 0 ∧ [1].length % 8 ≠ 0) ∧
      (let s := begun [0x34]; s.started ∧ s.inValid = true ∧ nonsep (s.readIbuf .scan) s.ilen = 0 :: [] ∧
        padDec (s.readIbuf .digit 0) = some 4 ∧ ([] : List Nat).length = 0 ∧ 4 > 0) := by
  decide

/-- DecReturnsThePayload, past the lengths: a bad character, a digit alone that stands for no padding, a whole group. -/
theorem witness_dec_late :
    (let s := begun (codes ['0', 'z', '!', 'z', 'z', 'z', 'z', 'z', 'z']); s.started ∧ s.inValid = true ∧
      nonsep (s.readIbuf .scan) s.ilen = 0 :: ([1] ++ 2 :: [3, 4, 5, 6, 7, 8]) ∧ padDec (s.readIbuf .digit 0) = some 0 ∧
      (∀ i ∈ [1], valid (s.readIbuf .data i) = true) ∧ valid (s.readIbuf .data 2) = false) ∧
    (let s := begun [0x30]; s.started ∧ s.inValid = true ∧ nonsep (s.readIbuf .scan) s.ilen = 0 :: [] ∧
      padDec (s.readIbuf .digit 0) = some 0 ∧ ([] : List Nat).length % 8 = 0 ∧ ¬ (([] : List Nat).length = 0 ∧ 0 > 0)) ∧
    (let s := begun text7E; s.started ∧ s.inValid = true ∧
      nonsep (s.readIbuf .scan) s.ilen = 0 :: [2, 3, 4, 5, 7, 8, 9, 10] ∧ padDec (s.readIbuf .digit 0) = some 4 ∧
      (∀ i ∈ [2, 3, 4, 5, 7, 8, 9, 10], valid (s.readIbuf .data i) = true)) := by
  decide

/-- DecsReturnsThePayload: absent, a bad length, a bad character, half a group, nothing. -/
theorem witness_decs :
    State.reset.acceptStart.started ∧ State.reset.acceptStart.inValid = false ∧
      (let s := begun (codes ['z', 'z', 'z']); s.started ∧ s.inValid = true ∧ (nonsep (s.readIbuf .scan) s.ilen).length % 4 ≠ 0) ∧
      (let s := begun (codes ['z', 'z', 'o', 'z']); s.started ∧ s.inValid = true ∧
        nonsep (s.readIbuf .scan) s.ilen = [0, 1] ++ 2 :: [3] ∧ (∀ i ∈ [0, 1], valid (s.readIbuf .data i) = true) ∧
        valid (s.readIbuf .data 2) = false) ∧
      (let s := begun (codes ['z', 'z', '-', 'z', 'z']); s.started ∧ s.inValid = true ∧
        (nonsep (s.readIbuf .scan) s.ilen).length % 4 = 0 ∧ ∀ i ∈ nonsep (s.readIbuf .scan) s.ilen, valid (s.readIbuf .data i) = true) ∧
      (let s := begun []; s.started ∧ s.inValid = true ∧ nonsep (s.readIbuf .scan) s.ilen = []) := by
  decide

/-- ChksAcceptsExactlyTheStrictForm, ChkaAcceptsExactlyTheAcceptable, ChkwAcceptsExactlyTheNormalForm, ValidTextsDecode and
MinimumLengths: texts held by started states, the empty one among them, and an absent input. -/
theorem witness_texts :
    (begun text7E).started ∧ (begun text7E).holds text7E ∧ (begun textZeros).started ∧ (begun textZeros).holds textZeros ∧
      (begun []).started ∧ (begun []).holds [] ∧ State.reset.acceptStart.started ∧ State.reset.acceptStart.inValid = false := by
  decide

/-- ValidTextsDecode and MinimumLengths: texts the predicates accept. -/
theorem witness_accepted :
    exec .chkw (begun text7E) = .next (after .chkw (begun text7E)) ∧ (after .chkw (begun text7E)).result = true ∧
      exec .chka (begun text7E) = .next (after .chka (begun text7E)) ∧ (after .chka (begun text7E)).result = true ∧
      exec .chks (begun textZeros) = .next (after .chks (begun textZeros)) ∧ (after .chks (begun textZeros)).result = true := by
  refine ⟨exec_eq_after _ _, by decide, exec_eq_after _ _, by decide, exec_eq_after _ _, by decide⟩

/-- MinimumLengths: the shortest texts, `"0-"` for `CHKW`, `"0"` for `CHKA`, the empty one for `CHKS`. -/
theorem witness_shortest :
    (begun [0x30, 0x2D]).holds [0x30, 0x2D] ∧ (after .chkw (begun [0x30, 0x2D])).result = true ∧
      (begun [0x30]).holds [0x30] ∧ (after .chka (begun [0x30])).result = true ∧ (after .chks (begun [])).result = true := by
  decide

/-- DecodersNeverRunOutOfRoom. -/
theorem witness_room :
    (begun text7E).ilen ≤ (begun text7E).obufMax ∧ (begun text7E).err = .ok ∧ Instr.dec ∈ [Instr.dec, .decs] ∧
      exec .dec (begun text7E) = .next (after .dec (begun text7E)) ∧ (after .dec (begun text7E)).err = .ok := by
  refine ⟨by decide, by decide, by decide, exec_eq_after _ _, by decide⟩

/-- DecOfEncIsThePayload and EncProducesWellFormedText: payload `7E`. -/
theorem witness_enc_then_read :
    (begun [0x7E]).started ∧ (begun [0x7E]).holds [0x7E] ∧ exec .enc (begun [0x7E]) = .next (after .enc (begun [0x7E])) ∧
      (after .enc (begun [0x7E])).err = .ok ∧ (after .enc (begun [0x7E])).delivers text7E ∧
      (begun text7E).started ∧ (begun text7E).holds text7E := by
  refine ⟨by decide, by decide, exec_eq_after _ _, by decide, by decide, by decide, by decide⟩

/-- DecsOfEncsIsThePayload and EncsProducesStrictText: five zero bytes. -/
theorem witness_encs_then_read :
    (begun [0, 0, 0, 0, 0]).started ∧ (begun [0, 0, 0, 0, 0]).holds [0, 0, 0, 0, 0] ∧
      exec .encs (begun [0, 0, 0, 0, 0]) = .next (after .encs (begun [0, 0, 0, 0, 0])) ∧
      (after .encs (begun [0, 0, 0, 0, 0])).err = .ok ∧ (after .encs (begun [0, 0, 0, 0, 0])).delivers textZeros ∧
      (begun textZeros).started ∧ (begun textZeros).holds textZeros := by
  refine ⟨by decide, by decide, exec_eq_after _ _, by decide, by decide, by decide, by decide⟩

/-- EncodersProduceOnlySymbolsAndSeparators: an output with cells. -/
theorem witness_output :
    Instr.enc ∈ [Instr.enc, .encs] ∧ exec .enc (begun [0x7E]) = .next (after .enc (begun [0x7E])) ∧
      10 < (after .enc (begun [0x7E])).olen := by
  refine ⟨by decide, exec_eq_after _ _, by decide⟩

/-- EncIsDigitSeparatorAndEncs: payload `7E` and its padded form. -/
theorem witness_padded :
    (begun [0x7E]).started ∧ (begun [0x7E, 0, 0, 0, 0]).started ∧ (begun [0x7E]).lenw = (begun [0x7E, 0, 0, 0, 0]).lenw ∧
      (begun [0x7E]).holds [0x7E] ∧ (begun [0x7E, 0, 0, 0, 0]).holds ([0x7E] ++ List.replicate (padCalc 1) 0) ∧
      exec .enc (begun [0x7E]) = .next (after .enc (begun [0x7E])) ∧ (after .enc (begun [0x7E])).err = .ok ∧
      exec .encs (begun [0x7E, 0, 0, 0, 0]) = .next (after .encs (begun [0x7E, 0, 0, 0, 0])) := by
  refine ⟨by decide, by decide, by decide, by decide, by decide, exec_eq_after _ _, by decide, exec_eq_after _ _⟩

/-- DecodersIgnoreSeparators: `"zzzz"` and `"zz-zz"` (D48, D50). -/
theorem witness_separators :
    let a := codes ['z', 'z', 'z', 'z']
    let b := codes ['z', 'z', '-', 'z', 'z']
    (begun a).started ∧ (begun b).started ∧ (begun a).holds a ∧ (begun b).holds b ∧ strip a = strip b ∧
      Instr.decs ∈ [Instr.dec, .decs] ∧ exec .decs (begun a) = .next (after .decs (begun a)) ∧
      exec .decs (begun b) = .next (after .decs (begun b)) := by
  refine ⟨by decide, by decide, by decide, by decide, by decide, by decide, exec_eq_after _ _, exec_eq_after _ _⟩

/-- NoTextIsStrictAndAcceptable. -/
theorem witness_both_predicates :
    (begun textZeros).started ∧ (begun textZeros).holds textZeros ∧
      exec .chks (begun textZeros) = .next (after .chks (begun textZeros)) ∧
      exec .chka (begun textZeros) = .next (after .chka (begun textZeros)) := by
  refine ⟨by decide, by decide, exec_eq_after _ _, exec_eq_after _ _⟩

/-- ReencodingGivesTheSymbolsBack: `"4-fr00-0000"` and `7E`. -/
theorem witness_reencode :
    (begun text7E).started ∧ (begun text7E).holds text7E ∧ exec .chka (begun text7E) = .next (after .chka (begun text7E)) ∧
      (after .chka (begun text7E)).result = true ∧ exec .dec (begun text7E) = .next (after .dec (begun text7E)) ∧
      (after .dec (begun text7E)).delivers [0x7E] ∧ (begun [0x7E]).started ∧ (begun [0x7E]).holds [0x7E] ∧
      exec .enc (begun [0x7E]) = .next (after .enc (begun [0x7E])) ∧ (after .enc (begun [0x7E])).err = .ok ∧
      0 + 1 < (strip text7E).length := by
  refine ⟨by decide, by decide, exec_eq_after _ _, by decide, exec_eq_after _ _, by decide, by decide, by decide, exec_eq_after _ _,
    by decide, by decide⟩

/-- PackerAndUnpackerAreInverse, EndingCheckIsZeroPaddingBits, SeparatorsStandAtTheCadence, SymbolAndByteCounts and
PadEndRomMaskIsItsLowBits: operands at the ends of their ranges. -/
theorem witness_units :
    [1, 2, 3, 4, 5].length % 5 = 0 ∧ ([] : List Byte).length % 5 = 0 ∧ ([1, 2, 3, 4, 5, 6, 7, 8] : List SymVal).length % 8 = 0 ∧
      (1 ≤ 1 ∧ 1 ≤ 4) ∧ (1 ≤ 4 ∧ 4 ≤ 4) ∧ 40 - 8 * 4 ≤ 8 ∧ 10 < 1 + 10 * 1 ∧ 8 < 10 * 1 - 1 ∧ 5 % 5 = 0 ∧ (15 : SymVal) >>> 4 = 0 >>> 4 ∧
      padEndRom 1 = some ⟨1, 3, 0x01010101⟩ ∧ padEndRom 4 = some ⟨6, 2, 0x11111111⟩ := by
  decide

/-- DecRomHoldsTheAlphabetAndNothingElse, AlphabetIsABijection, PaddingDigitsAreZeroToFour: a byte of each kind. -/
theorem witness_bytes : valid 0x7A = true ∧ isSep 0x75 = false ∧ valid 0x75 = false ∧ 4 ≤ 4 := by decide

/-- CtrlWriteStartsAndInvalidates, LockedWritesAreIgnored, ReadsWhileBusyShowTheOperands: a busy state and an idle one, with each
value of the two bits. -/
theorem witness_ports :
    (begun [1]).busy = true ∧ (loaded [1]).busy = false ∧ (0 : Nat).testBit 0 = false ∧ (3 : Nat).testBit 0 = true ∧
      HostReg.pad ∈ [HostReg.status, .olen, .epos, .echar, .pad] ∧ 65534 < (begun [1]).ibufMax ∧ 65534 < (begun [1]).obufMax ∧
      (begun [1]).ibuf.lookup 0 = some 1 := by
  decide

/-- IlenWriteDeclaresTheInput, StatusWordHasItsFields, CellWriteChangesOneCell, ReadsChangeNothing: an idle state and its last cells. -/
theorem witness_idle_ports :
    State.reset.busy = false ∧ 65534 < State.reset.ibufMax ∧ 65534 < State.reset.bufMax .ibuf ∧ 65534 < State.reset.bufMax .obuf := by
  decide

/-- RegisterReadsFitTheirWidth, StepKeepsTheInvariant, WellFormedTurnsNeverStop: a busy state that meets the invariant, its step, and
a well-formed turn. -/
theorem witness_invariant_busy : ({ begun [0x7E] with moves := [.host (.readCell .ibuf 65534)] } : State).Inv ∧
    (∀ m, [Move.host (.readCell .ibuf 65534)].head? = some m → m.wellFormed 16 = true) := by
  refine ⟨by constructor <;> decide, fun m h => ?_⟩
  cases h
  decide

theorem witness_invariant_step : (begun [0x7E]).Inv ∧ (nextOf (step (begun [0x7E]))).isSome = true := by
  refine ⟨by constructor <;> decide, by decide⟩

/-- MovoMakesTheOutputTheInput: an idle state with an output that meets the invariant. -/
theorem witness_invariant_output :
    ({ State.reset with olen := 2, obuf := Memory.ofBytes [0x30, 0x2D] } : State).Inv ∧
      ({ State.reset with olen := 2, obuf := Memory.ofBytes [0x30, 0x2D] } : State).busy = false := by
  refine ⟨by constructor <;> decide, by decide⟩

end Sys2Proof.Tests
end

/-! Registers and buffers after reset (R29), and what a host write of `CTRL` does (R14, R110). -/

namespace Sys2Proof.Machine

/-! ## After reset -/

/-- Every register of the map (R12) has the reset value 0. -/
@[simp] theorem State.hostReadReg_reset (r : HostReg) : State.reset.hostReadReg r = 0 := by
  cases r <;> rfl

/-- Settles O45: the registers by `State.hostReadReg_reset`, the buffers because neither lists a cell. -/
theorem resetClearsEveryRegister : Obligations.ResetClearsEveryRegister :=
  ⟨State.hostReadReg_reset, State.reset_busy, State.reset_done, State.reset_inValid,
    fun a => ⟨Memory.lookup_nil a, Memory.lookup_nil a⟩⟩

/-! ## A write of `CTRL` -/

/-- The state an accepted `START` leaves meets the predicate `started`. -/
theorem State.started_acceptStart (s : State) : s.acceptStart.started := by
  simp [State.started]

/-- Without `START` a write of `CTRL` is its `INVAL` half: `IN_VALID` is cleared by bit 1, nothing else changes (R14). -/
theorem State.writeCtrl_of_not_start (s : State) {v : Nat} (h : v.testBit 0 = false) :
    s.writeCtrl v = { s with inValid := !v.testBit 1 && s.inValid } := by
  cases h1 : v.testBit 1 <;> simp [State.writeCtrl, State.clearInput, h, h1]

/-- With `START` the command is started after the `INVAL` half has acted (R14). -/
theorem State.writeCtrl_of_start (s : State) {v : Nat} (h : v.testBit 0 = true) :
    s.writeCtrl v = State.acceptStart { s with inValid := !v.testBit 1 && s.inValid } := by
  cases h1 : v.testBit 1 <;> simp [State.writeCtrl, State.clearInput, h, h1]

/-- Whether or not a command starts, `IN_VALID` is cleared by bit 1 alone, and the operands and `OBUF` stay (R14, R110). -/
theorem State.writeCtrl_frame (s : State) (v : Nat) :
    (s.writeCtrl v).inValid = (!v.testBit 1 && s.inValid) ∧ (s.writeCtrl v).cmd = s.cmd ∧ (s.writeCtrl v).ilen = s.ilen ∧
      (s.writeCtrl v).ibuf = s.ibuf ∧ (s.writeCtrl v).obuf = s.obuf := by
  cases h : v.testBit 0 with
  | false => rw [s.writeCtrl_of_not_start h]; exact ⟨rfl, rfl, rfl, rfl, rfl⟩
  | true => rw [s.writeCtrl_of_start h]; exact ⟨rfl, rfl, rfl, rfl, rfl⟩

/-- A host write of `CTRL` while `BUSY = 0` reaches the register (R14). -/
theorem State.hostWriteReg_ctrl_of_idle {s : State} (h : s.busy = false) (v : Nat) :
    s.hostWriteReg .ctrl v = s.writeCtrl v := by
  simp [State.hostWriteReg, h]

/-- Settles O47: a busy block ignores the write; an idle one does `State.writeCtrl`, split by its `START` bit. -/
theorem ctrlWriteStartsAndInvalidates : Obligations.CtrlWriteStartsAndInvalidates := by
  intro s v
  refine ⟨rfl, fun hbusy => congrArg Host.Outcome.next (State.hostWriteReg_of_busy hbusy .ctrl v), fun hidle => ?_⟩
  obtain ⟨hvalid, hframe⟩ := s.writeCtrl_frame v
  refine ⟨s.writeCtrl v, congrArg Host.Outcome.next (State.hostWriteReg_ctrl_of_idle hidle v), hvalid, fun hstart => ?_,
    fun hnot => ?_, hframe⟩
  · rw [s.writeCtrl_of_start hstart]
    exact State.started_acceptStart _
  · rw [hvalid]
    exact s.writeCtrl_of_not_start hnot

end Sys2Proof.Machine

/-! The opcode map read both ways (R43). -/

namespace Sys2Proof

/-- The decoder reads the word of a command, as the column "op" of R43 gives it, as that command. -/
@[simp] theorem decode_encode (i : Instr) : decode (encode i) = i := by
  cases i <;> rfl

/-- Settles O1: the eight words are the words of the commands in the order of R43, so each is read by `decode_encode`. -/
theorem commandWordsReadAsTheOpcodeMap : Obligations.CommandWordsReadAsTheOpcodeMap :=
  ⟨decode_encode .rsvd, decode_encode .enc, decode_encode .encs, decode_encode .dec,
    decode_encode .decs, decode_encode .chkw, decode_encode .chka, decode_encode .chks⟩

end Sys2Proof

/-! The padding digit and the ROMs it is read through (R25, R26, R53, R63, R64). -/

namespace Sys2Proof.Machine

/-- Only a listed row of `DEC_ROM` has its `valid` bit set; every other entry is zero (R26). -/
theorem mem_decRomRows_of_valid {c : Byte} (h : valid c = true) : (c, decRom c) ∈ decRomRows := by
  cases hrow : decRomRows.lookup c with
  | none => simp [valid, decRom, hrow] at h
  | some e =>
    obtain ⟨before, after, hsplit, -⟩ := List.lookup_eq_some_iff.mp hrow
    have hentry : decRom c = e := by simp [decRom, hrow]
    simp [hsplit, hentry]

/-- In every symbol's row of `DEC_ROM` the value is the one whose entry of `ENC_ROM` is the byte of the row (R25, R26). -/
theorem val2sym_val_of_mem_decRomRows : ∀ row ∈ decRomRows, row.2.valid = true → val2sym row.2.val = row.1 := by
  decide

/-- A symbol is the code of its value (R60, R61). -/
theorem val2sym_sym2val {c : Byte} (h : valid c = true) : val2sym (sym2val c) = c :=
  val2sym_val_of_mem_decRomRows (c, decRom c) (mem_decRomRows_of_valid h) h

/-- PADENC writes the digits from `'0'` (R53, R63). -/
theorem padEnc_of_le_four {p : Nat} (h : p ≤ 4) : padEnc p = BitVec.ofNat 8 (0x30 + p) := by
  interval_cases p <;> rfl

/-- The padding digits are the bytes `'0'` to `'4'` (R53). -/
theorem toNat_padEnc {p : Nat} (h : p ≤ 4) : (padEnc p).toNat = 0x30 + p := by
  rw [padEnc_of_le_four h, BitVec.toNat_ofNat]
  omega

/-- PADDEC takes back what PADENC gives (R63, R64). -/
theorem padDec_padEnc {p : Nat} (h : p ≤ 4) : padDec (padEnc p) = some p := by
  interval_cases p <;> rfl

/-- PADDEC takes a byte only if PADENC gives it: the byte is a symbol, hence the code of its own value (R64). -/
theorem padEnc_of_padDec {c : Byte} {p : Nat} (h : padDec c = some p) : padEnc p = c := by
  unfold padDec at h
  split at h
  case isTrue hc =>
    obtain ⟨hvalid, -⟩ := Bool.and_eq_true_iff.mp hc
    cases h
    rw [padEnc, BitVec.ofNat_toNat, BitVec.setWidth_eq, val2sym_sym2val hvalid]
  case isFalse => cases h

/-- Settles O37: a byte from `'0'` to `'4'` is PADENC of its distance from `'0'`, so `padDec_padEnc` reads it; a byte that PADDEC takes
is PADENC of the padding it stands for (`padEnc_of_padDec`), so no other byte is taken. -/
theorem paddingDigitsAreZeroToFour : Obligations.PaddingDigitsAreZeroToFour := by
  refine ⟨fun p hp => padEnc_of_le_four hp, fun c => ?_⟩
  split
  case isTrue hdigit =>
    have hp : c.toNat - 0x30 ≤ 4 := by omega
    have hc : padEnc (c.toNat - 0x30) = c := by
      apply BitVec.eq_of_toNat_eq
      rw [toNat_padEnc hp]
      omega
    simpa only [hc] using padDec_padEnc hp
  case isFalse hother =>
    refine Option.eq_none_iff_forall_ne_some.mpr fun p hsome => hother ?_
    have hp : p ≤ 4 := padDec_le hsome
    have hc := toNat_padEnc hp
    rw [padEnc_of_padDec hsome] at hc
    omega

end Sys2Proof.Machine

/-! The functional units: the alphabet (R61), the padding (R62), and the counts of symbols and bytes (R67, R70). -/

namespace Sys2Proof.Machine

/-! ## Alphabet -/

/-- The code of every value is a symbol (R61). -/
@[simp] theorem valid_val2sym : ∀ v : SymVal, valid (val2sym v) = true := by
  decide

/-- Every value is the value of its code (R61). -/
@[simp] theorem sym2val_val2sym : ∀ v : SymVal, sym2val (val2sym v) = v := by
  decide

/-- Settles O33: `sym2val_val2sym` and `val2sym_sym2val` are the two inverses; the order is that of `ENC_ROM`, read entry by entry. -/
theorem alphabetIsABijection : Obligations.AlphabetIsABijection :=
  ⟨fun v => ⟨valid_val2sym v, sym2val_val2sym v⟩, fun _ hc => val2sym_sym2val hc, by decide⟩

/-! ## Padding -/

/-- The padding completes the length to whole groups of 5 bytes (R62). -/
theorem add_padCalc_mod_five (L : Nat) : (L + padCalc L) % 5 = 0 := by
  unfold padCalc
  omega

/-- Settles O36: the range is `padCalc_le`, the completion `add_padCalc_mod_five`; the formula and the table are the definition's. -/
theorem paddingCompletesTheLength : Obligations.PaddingCompletesTheLength :=
  ⟨fun L => ⟨rfl, padCalc_le L, add_padCalc_mod_five L⟩, rfl, rfl, rfl, rfl, rfl, rfl⟩

/-! ## Counts of symbols and bytes -/

/-- NSYM symbols hold the bits of `M` bytes, and one symbol fewer does not (R67). -/
theorem nsym_bounds (M : Nat) : 8 * M ≤ 5 * nsym M ∧ 5 * nsym M < 8 * M + 5 := by
  unfold nsym
  omega

/-- A text of whole groups of 8 symbols holds whole groups of 5 bytes (R70). -/
theorem nbytes_groups (m : Nat) : nbytes (8 * m) = 5 * m := by
  unfold nbytes
  omega

/-- A half group of 4 symbols after the whole ones holds 2 bytes more (R70). -/
theorem nbytes_halfGroup (m : Nat) : nbytes (8 * m + 4) = 5 * m + 2 := by
  unfold nbytes
  omega

/-- The last symbol of a half group gives its high bit to the last byte; the byte its low 4 bits would go to lies past the output
(R68, R70). -/
theorem unpack_last_of_halfGroup (m : Nat) (W : List Byte) (v : SymVal) :
    unpack W (nbytes (8 * m + 4)) (8 * m + 3) v = orAt W (5 * m + 1) (BitVec.ofNat 8 (v >>> 4).toNat) := by
  have hbyte : 5 * (8 * m + 3) / 8 = 5 * m + 1 := by omega
  have hoff : 5 * (8 * m + 3) % 8 = 7 := by omega
  simp [unpack, nbytes_halfGroup, hbyte, hoff]

/-- Cutting a number to a symbol value keeps its bit 4, so numbers that agree above their low 4 bits give symbols that do. -/
theorem symVal_natCast_shiftRight_four {v w : Nat} (h : v >>> 4 = w >>> 4) : (v : SymVal) >>> 4 = (w : SymVal) >>> 4 := by
  apply BitVec.eq_of_toNat_eq
  simp only [BitVec.toNat_ushiftRight, BitVec.natCast_eq_ofNat, BitVec.toNat_ofNat, Nat.shiftRight_eq_div_pow] at h ⊢
  omega

/-- Settles O44: whole groups by `nsym_whole`; in a half group the last symbol acts through `v >>> 4` alone
(`unpack_last_of_halfGroup`). The statement's last clause ranges over numbers, cut to symbol values. -/
theorem symbolAndByteCounts : Obligations.SymbolAndByteCounts := by
  refine ⟨nsym_bounds, fun M hM => ?_, fun _ => rfl, fun m => ⟨nbytes_groups m, nbytes_halfGroup m⟩, fun m W v w hhigh => ?_⟩
  · rw [nsym_whole hM]
    omega
  · rw [unpack_last_of_halfGroup, unpack_last_of_halfGroup, symVal_natCast_shiftRight_four hhigh]

end Sys2Proof.Machine

/-! The encode commands ENC and ENCS from a started state: their faults, and their texts cell by cell (R76, R77). -/

namespace Sys2Proof.Machine

/-! ## How a command that started ends -/

/-- A padding fits its register (R20). -/
theorem toNat_pad_of_le_four {p : Nat} (h : p ≤ 4) : (BitVec.ofNat 3 p).toNat = p := by
  rw [BitVec.toNat_ofNat]
  omega

/-- A fault taken in a started state has the results `START` cleared (R96, R110). -/
theorem State.faulted_raise {s : State} (hs : s.started) (e : ErrCode) : (s.raise e).faulted e 0 0 0 := by
  obtain ⟨-, -, hresult, -, -, hepos, hechar, hpad⟩ := hs
  simp [State.faulted, State.ended, State.outputUnspec, hresult, hepos, hechar, hpad]

/-- A fault taken after `PAD` was written in a started state shows that padding (R20, R96). -/
theorem State.faulted_raise_setPad {s : State} (hs : s.started) (e : ErrCode) {p : Nat} (hp : p ≤ 4) :
    ((s.setPad p).raise e).faulted e 0 0 p := by
  obtain ⟨-, -, hresult, -, -, hepos, hechar, -⟩ := hs
  simp [State.faulted, State.ended, State.outputUnspec, hresult, hepos, hechar, toNat_pad_of_le_four hp]

/-- An output delivered in a started state is a success with padding 0 (R17, R110). -/
theorem State.succeeded_deliver {s : State} (hs : s.started) (out : Memory) (n : Nat) : (s.deliver out n).succeeded n 0 := by
  obtain ⟨-, -, hresult, herr, -, hepos, hechar, hpad⟩ := hs
  simp [State.succeeded, State.ended, hresult, herr, hepos, hechar, hpad]

/-- An output delivered after `PAD` was written in a started state is a success with that padding (R17, R20). -/
theorem State.succeeded_deliver_setPad {s : State} (hs : s.started) (out : Memory) (n : Nat) {p : Nat} (hp : p ≤ 4) :
    ((s.setPad p).deliver out n).succeeded n p := by
  obtain ⟨-, -, hresult, herr, -, hepos, hechar, -⟩ := hs
  simp [State.succeeded, State.ended, hresult, herr, hepos, hechar, toNat_pad_of_le_four hp]

/-! ## What ENC and ENCS do in each case -/

section
variable {s : State}

theorem exec_enc_of_absent (hin : s.inValid = false) : exec .enc s = .next (s.raise .nil) := by
  simp only [exec, execEnc, hin, Bool.not_false, if_true]

/-- The text does not fit: `PAD` is written before the fault is taken (R76, R98). -/
theorem exec_enc_of_long (hin : s.inValid = true) (hlong : needN (8 * ((s.ilen + 4) / 5)) > s.obufMax) :
    exec .enc s = .next ((s.setPad (padCalc s.ilen)).raise .cap) := by
  simp only [exec, execEnc, hin, nsym_padded, Bool.not_true, Bool.false_eq_true, if_false]
  rw [if_pos hlong]

theorem exec_enc_of_fits (hin : s.inValid = true) (hfits : needN (8 * ((s.ilen + 4) / 5)) ≤ s.obufMax) :
    exec .enc s = .next ((s.setPad (padCalc s.ilen)).deliver s.encText (needN (8 * ((s.ilen + 4) / 5)))) := by
  simp only [exec, execEnc, hin, nsym_padded, Bool.not_true, Bool.false_eq_true, if_false]
  rw [if_neg (Nat.not_lt.mpr hfits)]

theorem exec_encs_of_absent (hin : s.inValid = false) : exec .encs s = .next (s.raise .nil) := by
  simp only [exec, execEncs, hin, Bool.not_false, if_true]

theorem exec_encs_of_ragged (hin : s.inValid = true) (hlen : s.ilen % 5 ≠ 0) : exec .encs s = .next (s.raise .len) := by
  simp only [exec, execEncs, hin, Bool.not_true, Bool.false_eq_true, if_false]
  rw [if_pos hlen]

theorem exec_encs_of_long (hin : s.inValid = true) (hlen : s.ilen % 5 = 0) (hlong : needS (8 * (s.ilen / 5)) > s.obufMax) :
    exec .encs s = .next (s.raise .cap) := by
  simp only [exec, execEncs, hin, nsym_whole hlen, Bool.not_true, Bool.false_eq_true, if_false]
  rw [if_neg (not_not.mpr hlen), if_pos hlong]

theorem exec_encs_of_fits (hin : s.inValid = true) (hlen : s.ilen % 5 = 0) (hfits : needS (8 * (s.ilen / 5)) ≤ s.obufMax) :
    exec .encs s = .next (s.deliver s.encsText (needS (8 * (s.ilen / 5)))) := by
  simp only [exec, execEncs, hin, nsym_whole hlen, Bool.not_true, Bool.false_eq_true, if_false]
  rw [if_neg (not_not.mpr hlen), if_neg (Nat.not_lt.mpr hfits)]

end

/-! ## Where the separators stand -/

/-- In the normal form a separator stands at every index that is 1 modulo 5: at index 1, and before each symbol whose index
is a positive multiple of 4 (R74, R76). -/
theorem encText_sep_of_mod_five (s : State) {i : Nat} (hi : i < needN (8 * ((s.ilen + 4) / 5))) (h1 : i % 5 = 1) :
    s.encText.lookup i = some sep := by
  by_cases hone : i = 1
  · rw [hone, encText_sep_one]
  · have hk : 4 * (i / 5) < 8 * ((s.ilen + 4) / 5) := by
      rw [needN_groups] at hi
      split at hi <;> omega
    have hpos : i = posN (4 * (i / 5)) - 1 := by simp only [posN]; omega
    rw [hpos]
    exact encText_sep s (by rwa [nsym_padded]) (by omega) (by omega)

/-- In the strict form a separator stands at every index that is 4 modulo 5, before the symbol whose index is the next multiple
of 4 (R74, R77). -/
theorem encsText_sep_of_mod_five (s : State) (hlen : s.ilen % 5 = 0) {i : Nat} (hi : i < needS (8 * (s.ilen / 5)))
    (h4 : i % 5 = 4) : s.encsText.lookup i = some sep := by
  have hk : 4 * (i / 5 + 1) < 8 * (s.ilen / 5) := by
    rw [needS_groups] at hi
    split at hi <;> omega
  have hpos : i = posS (4 * (i / 5 + 1)) - 1 := by simp only [posS]; omega
  rw [hpos]
  exact encsText_sep s (by rwa [nsym_whole hlen]) (by omega) (by omega)

/-! ## The statements -/

/-- Settles O13: the three cases of `exec .enc`, with the length of the text as `needN_groups` gives it; the cells are those of
`State.encText`. -/
theorem encWritesTheNormalForm : Obligations.EncWritesTheNormalForm := by
  intro s hs p g need
  have hneed : needN (8 * g) = need := needN_groups g
  have hp : p ≤ 4 := padCalc_le s.ilen
  refine ⟨fun hin => ⟨_, exec_enc_of_absent hin, State.faulted_raise hs .nil⟩,
    fun hin hlong => ⟨_, exec_enc_of_long hin (hneed ▸ hlong), State.faulted_raise_setPad hs .cap hp⟩,
    fun hin hfits => ⟨_, exec_enc_of_fits hin (hneed ▸ hfits), hneed ▸ State.succeeded_deliver_setPad hs _ _ hp,
      encText_digit s, fun k hk => ?symbol, fun i hi h1 => ?separator, fun i hi => ?beyond⟩⟩
  case symbol => exact encText_symbol s (by rwa [nsym_padded])
  case separator => exact encText_sep_of_mod_five s (hneed ▸ hi) h1
  case beyond => exact encText_beyond s (by rwa [nsym_padded, hneed])

/-- Settles O14: the four cases of `exec .encs`, with the length of the text as `needS_groups` gives it; the cells are those of
`State.encsText`. -/
theorem encsWritesTheStrictForm : Obligations.EncsWritesTheStrictForm := by
  intro s hs g need
  have hneed : needS (8 * g) = need := needS_groups g
  refine ⟨fun hin => ⟨_, exec_encs_of_absent hin, State.faulted_raise hs .nil⟩,
    fun hin hlen => ⟨_, exec_encs_of_ragged hin hlen, State.faulted_raise hs .len⟩,
    fun hin hlen hlong => ⟨_, exec_encs_of_long hin hlen (hneed ▸ hlong), State.faulted_raise hs .cap⟩,
    fun hin hlen hfits => ⟨_, exec_encs_of_fits hin hlen (hneed ▸ hfits), hneed ▸ State.succeeded_deliver hs _ _,
      fun k hk => ?symbol, fun i hi h4 => ?separator, fun i hi => ?beyond⟩⟩
  case symbol => exact encsText_symbol s (by rwa [nsym_whole hlen])
  case separator => exact encsText_sep_of_mod_five s hlen (hneed ▸ hi) h4
  case beyond => exact encsText_beyond s hlen (by rwa [nsym_whole hlen, hneed])

end Sys2Proof.Machine

/-! The decode commands DEC and DECS from a started state: their faults, and their bytes bit by bit (R81, R82). -/

namespace Sys2Proof.Machine

variable {s : State}

/-! ## What DEC and DECS do in each case -/

theorem exec_dec_of_absent (hin : s.inValid = false) : exec .dec s = .next (s.raise .nil) := by
  simp only [exec, execDec, hin, Bool.not_false, if_true]

/-- There is no data character to read the padding digit from (R81). -/
theorem exec_dec_of_empty (hin : s.inValid = true) (hnone : nonsep (s.readIbuf .scan) s.ilen = []) :
    exec .dec s = .next (s.raise .pad) := by
  simp only [exec, execDec, hin, hnone, Bool.not_true, Bool.false_eq_true, if_false]

section
variable {x : Nat} {xs : List Nat} {p : Nat} (hin : s.inValid = true) (hchars : nonsep (s.readIbuf .scan) s.ilen = x :: xs)
include hin hchars

theorem exec_dec_of_not_digit (hdigit : padDec (s.readIbuf .digit x) = none) : exec .dec s = .next (s.raise .pad) := by
  simp only [exec, execDec, hin, hchars, hdigit, Bool.not_true, Bool.false_eq_true, if_false]

/-- No whole groups, or padding without data: `PAD` is written before the fault is taken (R81, R98). -/
theorem exec_dec_of_bad_length (hdigit : padDec (s.readIbuf .digit x) = some p)
    (hlen : xs.length % 8 ≠ 0 ∨ xs.length = 0 ∧ p > 0) : exec .dec s = .next ((s.setPad p).raise .len) := by
  simp only [exec, execDec, hin, hchars, hdigit, Bool.not_true, Bool.false_eq_true, if_false]
  by_cases hgroups : xs.length % 8 ≠ 0
  · rw [if_pos hgroups]
  · rw [if_neg hgroups, if_pos (hlen.resolve_left hgroups)]

theorem exec_dec_of_good_length (hdigit : padDec (s.readIbuf .digit x) = some p) (hgroups : xs.length % 8 = 0)
    (hdata : ¬ (xs.length = 0 ∧ p > 0)) : exec .dec s = .next ((s.setPad p).decodeData xs p) := by
  simp only [exec, execDec, hin, hchars, hdigit, Bool.not_true, Bool.false_eq_true, if_false]
  rw [if_neg (not_not.mpr hgroups), if_neg hdata]

end

theorem exec_decs_of_absent (hin : s.inValid = false) : exec .decs s = .next (s.raise .nil) := by
  simp only [exec, execDecs, hin, Bool.not_false, if_true]

theorem exec_decs_of_ragged (hin : s.inValid = true) (hlen : (nonsep (s.readIbuf .scan) s.ilen).length % 4 ≠ 0) :
    exec .decs s = .next (s.raise .len) := by
  simp only [exec, execDecs, hin, Bool.not_true, Bool.false_eq_true, if_false]
  rw [if_pos hlen]

theorem exec_decs_of_whole (hin : s.inValid = true) (hlen : (nonsep (s.readIbuf .scan) s.ilen).length % 4 = 0) :
    exec .decs s = .next (s.decodeData (nonsep (s.readIbuf .scan) s.ilen) 0) := by
  simp only [exec, execDecs, hin, Bool.not_true, Bool.false_eq_true, if_false]
  rw [if_neg (not_not.mpr hlen)]

/-! ## The end the two commands share -/

/-- The first data character outside the alphabet faults with its index and its byte (R95). -/
theorem State.decodeData_of_bad_char {ys zs : List Nat} {y : Nat} (cut : Nat) (hys : ∀ i ∈ ys, valid (s.readIbuf .data i) = true)
    (hy : valid (s.readIbuf .data y) = false) :
    s.decodeData (ys ++ y :: zs) cut = s.raiseChr y (s.readIbuf .data y) := by
  rw [State.decodeData, unpackAll_error hys hy]

/-- On symbols the output is all but the last `cut` of the unpacked bytes, each bit the symbol stream's (R34, R81, R82), and no other
cell holds a value (R22). -/
theorem State.decodeData_of_symbols {xs : List Nat} (cut : Nat) (hxs : ∀ i ∈ xs, valid (s.readIbuf .data i) = true) :
    ∃ out : Memory, s.decodeData xs cut = s.deliver out (nbytes xs.length - cut) ∧
      (∀ j < nbytes xs.length - cut, ∃ b, out.lookup j = some b ∧ ∀ u < 8, b.getLsbD (7 - u) =
        symbolBit (fun k => sym2val (s.readIbuf .data (xs.getD k 0))) (8 * j + u)) ∧
      (∀ j, nbytes xs.length - cut ≤ j → out.lookup j = none) := by
  obtain ⟨W, hunpack, hlength, hbits⟩ := unpackAll_ok hxs
  refine ⟨_, by rw [State.decodeData, hunpack], fun j hj => ⟨W.getD j 0, ?cell, hbits j (by omega)⟩, fun j hj => ?beyond⟩
  case cell =>
    rw [Memory.lookup_ofBytes, List.getElem?_take_of_lt hj, List.getElem?_eq_getElem (by omega), List.getElem_eq_getD]
  case beyond =>
    rw [Memory.lookup_ofBytes, List.getElem?_take_eq_none hj]

/-- A character fault shows the character and the padding written before it (R18 to R20, R96). -/
theorem State.faulted_raiseChr {p : Nat} (hresult : s.result = false) (hpad : s.pad.toNat = p) (i : Nat) (c : Byte) :
    (s.raiseChr i c).faulted .chr i c p := by
  simp [State.faulted, State.ended, State.outputUnspec, hresult, hpad]

/-! ## The statements -/

/-- Settles O15: the five cases of `exec .dec`; after the checks `State.decodeData` either meets the bad character or delivers the
bits. -/
theorem decReturnsThePayload : Obligations.DecReturnsThePayload := by
  intro s hs
  refine ⟨fun hin => ⟨_, exec_dec_of_absent hin, State.faulted_raise hs .nil⟩,
    fun hin hnone => ⟨_, exec_dec_of_empty hin hnone, State.faulted_raise hs .pad⟩,
    fun x xs hin hchars hdigit => ⟨_, exec_dec_of_not_digit hin hchars hdigit, State.faulted_raise hs .pad⟩,
    fun x xs p hin hchars hdigit => ?_⟩
  have hp : p ≤ 4 := padDec_le hdigit
  refine ⟨fun hlen => ⟨_, exec_dec_of_bad_length hin hchars hdigit hlen, State.faulted_raise_setPad hs .len hp⟩,
    fun hgroups hdata => ?_⟩
  rw [exec_dec_of_good_length hin hchars hdigit hgroups hdata]
  refine ⟨fun ys y zs hsplit hys hy => ⟨_, rfl, ?badChar⟩, fun hxs => ⟨_, rfl, ?payload⟩⟩
  case badChar =>
    rw [hsplit, State.decodeData_of_bad_char (s := s.setPad p) p hys hy]
    obtain ⟨-, -, hresult, -⟩ := hs
    exact State.faulted_raiseChr (s := s.setPad p) hresult (toNat_pad_of_le_four hp) _ _
  case payload =>
    obtain ⟨out, hdeliver, hbits, hbeyond⟩ := State.decodeData_of_symbols (s := s.setPad p) p hxs
    rw [hdeliver]
    exact ⟨State.succeeded_deliver_setPad hs out _ hp, hbits, hbeyond⟩

/-- Settles O16: the three cases of `exec .decs`; after the checks `State.decodeData` either meets the bad character or delivers the
bits, with nothing cut off. -/
theorem decsReturnsThePayload : Obligations.DecsReturnsThePayload := by
  intro s hs xs
  refine ⟨fun hin => ⟨_, exec_decs_of_absent hin, State.faulted_raise hs .nil⟩,
    fun hin hlen => ⟨_, exec_decs_of_ragged hin hlen, State.faulted_raise hs .len⟩, fun hin hlen => ?_⟩
  have hend : exec .decs s = .next (s.decodeData xs 0) := exec_decs_of_whole hin hlen
  rw [hend]
  refine ⟨fun ys y zs hsplit hys hy => ⟨_, rfl, ?badChar⟩, fun hxs => ⟨_, rfl, ?payload⟩⟩
  case badChar =>
    rw [hsplit, State.decodeData_of_bad_char 0 hys hy]
    obtain ⟨-, -, hresult, -, -, -, -, hpad⟩ := hs
    exact State.faulted_raiseChr hresult (congrArg BitVec.toNat hpad) _ _
  case payload =>
    obtain ⟨out, hdeliver, hbits, hbeyond⟩ := State.decodeData_of_symbols 0 hxs
    rw [hdeliver]
    exact ⟨State.succeeded_deliver hs out _, hbits, hbeyond⟩

end Sys2Proof.Machine

/-! The predicates CHKS, CHKA and CHKW on a text: each check of the unit against its grammar (R54, R55, R86 to R88). -/

namespace Sys2Proof.Machine

/-! ## Separators and symbols -/

/-- Only the separator's row of `DEC_ROM` has its `is_sep` bit set (R26). -/
theorem eq_sep_of_mem_decRomRows : ∀ row ∈ decRomRows, row.2.isSep = true → row.1 = sep := by
  decide

/-- `'-'` is the one separator (R52, R59). -/
theorem isSep_iff {c : Byte} : isSep c = true ↔ c = sep := by
  refine ⟨fun h => ?_, fun h => h ▸ rfl⟩
  cases hrow : decRomRows.lookup c with
  | none => simp [isSep, decRom, hrow] at h
  | some e =>
    obtain ⟨before, after, hsplit, -⟩ := List.lookup_eq_some_iff.mp hrow
    exact eq_sep_of_mem_decRomRows (c, e) (by simp [hsplit]) (by simpa [isSep, decRom, hrow] using h)

/-- No symbol is a separator (R59). -/
theorem isSep_of_valid {c : Byte} (h : valid c = true) : isSep c = false := by
  refine Bool.eq_false_iff.mpr fun hsep => ?_
  rw [isSep_iff.mp hsep] at h
  exact absurd h (by decide)

/-- A padding digit is a symbol (R64). -/
theorem valid_of_padDec {c : Byte} {p : Nat} (h : padDec c = some p) : valid c = true :=
  padEnc_of_padDec h ▸ valid_val2sym _

/-! ## A text in the input -/

/-- The reads `S` are the bytes of `text`. -/
def Reads (S : Nat → Byte) (text : List Byte) : Prop := ∀ i (hi : i < text.length), S i = text[i]

/-- The text an input holds is what every read site reads (R116). -/
theorem reads_of_holds {s : State} {text : List Byte} (h : s.holds text) (site : Config.ReadSite) :
    Reads (s.readIbuf site) text := by
  obtain ⟨-, -, hcells⟩ := h
  intro i hi
  exact State.readIbuf_of_lookup s site i _ (by rw [hcells i hi, List.getElem?_eq_getElem hi])

@[simp] theorem reads_nil (S : Nat → Byte) : Reads S [] := fun _ hi => absurd hi (Nat.not_lt_zero _)

@[simp] theorem reads_cons {S : Nat → Byte} {c : Byte} {text : List Byte} :
    Reads S (c :: text) ↔ S 0 = c ∧ Reads (fun i => S (i + 1)) text := by
  refine ⟨fun h => ⟨h 0 (by simp), fun i hi => h (i + 1) (by simpa using hi)⟩, fun ⟨hhead, htail⟩ i hi => ?_⟩
  cases i with
  | zero => exact hhead
  | succ i => exact htail i (by simpa using hi)

/-! ## CHKS: block after block -/

/-- A block is four symbols (R54, R55). -/
theorem isBlock_iff {b : List Byte} : isBlock b = true ↔
    ∃ c₀ c₁ c₂ c₃, b = [c₀, c₁, c₂, c₃] ∧ valid c₀ = true ∧ valid c₁ = true ∧ valid c₂ = true ∧ valid c₃ = true := by
  refine ⟨fun h => ?_, fun ⟨c₀, c₁, c₂, c₃, hb, hvalid⟩ => by simp [isBlock, hb, hvalid]⟩
  match b with
  | [] | [_] | [_, _] | [_, _, _] | _ :: _ :: _ :: _ :: _ :: _ => simp [isBlock] at h
  | [c₀, c₁, c₂, c₃] => exact ⟨c₀, c₁, c₂, c₃, rfl, by simpa [isBlock] using h⟩

/-- A block by its length (R54, R55). -/
theorem isBlock_iff_length {b : List Byte} : isBlock b = true ↔ b.length = 4 ∧ b.all valid = true := by
  simp [isBlock]

/-- CHKS on a text that is not empty: its length and each of its characters (R86). -/
theorem strictCheck_of_ne_zero (S : Nat → Byte) {n : Nat} (hn : n ≠ 0) :
    strictCheck S n = true ↔ n % 5 = 4 ∧ ∀ i < n, (if i % 5 = 4 then isSep (S i) else valid (S i)) = true := by
  simp [strictCheck, hn]

/-- CHKS on one block. -/
theorem strictCheck_four (S : Nat → Byte) :
    strictCheck S 4 = true ↔ valid (S 0) = true ∧ valid (S 1) = true ∧ valid (S 2) = true ∧ valid (S 3) = true := by
  simp [strictCheck, List.range_succ]

/-- CHKS on more than one block: a block, a separator, and the rest, which is not empty. -/
theorem strictCheck_add_five (S : Nat → Byte) {n : Nat} (hn : n ≠ 0) :
    strictCheck S (n + 5) = true ↔
      (valid (S 0) = true ∧ valid (S 1) = true ∧ valid (S 2) = true ∧ valid (S 3) = true) ∧ isSep (S 4) = true ∧
        strictCheck (fun i => S (i + 5)) n = true := by
  rw [strictCheck_of_ne_zero S (by omega), strictCheck_of_ne_zero _ hn]
  simp only [Nat.forall_lt_succ_left, Nat.add_assoc, Nat.reduceAdd, Nat.add_mod_right]
  simp [and_assoc, and_left_comm (a := n % 5 = 4)]

/-- Only no block at all makes an empty text. -/
theorem length_joinBlocks_ne_zero {b : List Byte} {bs : List (List Byte)} (hb : isBlock b = true) :
    (joinBlocks (b :: bs)).length ≠ 0 := by
  obtain ⟨c₀, c₁, c₂, c₃, rfl, -⟩ := isBlock_iff.mp hb
  cases bs <;> simp [joinBlocks]

/-- Blocks joined by separators pass CHKS. -/
theorem strictCheck_joinBlocks {bs : List (List Byte)} (hbs : ∀ b ∈ bs, isBlock b = true) {S : Nat → Byte}
    (hread : Reads S (joinBlocks bs)) : strictCheck S (joinBlocks bs).length = true := by
  induction bs using joinBlocks.induct generalizing S with
  | case1 => rfl
  | case2 b =>
    obtain ⟨c₀, c₁, c₂, c₃, rfl, hvalid⟩ := isBlock_iff.mp (hbs b (by simp))
    simp only [joinBlocks, reads_cons] at hread
    obtain ⟨rfl, rfl, rfl, rfl, -⟩ := hread
    exact (strictCheck_four S).mpr hvalid
  | case3 b c bs ih =>
    obtain ⟨c₀, c₁, c₂, c₃, rfl, hvalid⟩ := isBlock_iff.mp (hbs b (by simp))
    simp only [joinBlocks, List.cons_append, List.nil_append, reads_cons] at hread
    obtain ⟨rfl, rfl, rfl, rfl, hsep, hrest⟩ := hread
    exact (strictCheck_add_five S (length_joinBlocks_ne_zero (hbs c (by simp)))).mpr
      ⟨hvalid, isSep_iff.mpr hsep, ih (fun x hx => hbs x (List.mem_cons_of_mem _ hx)) hrest⟩

/-- A block and a separator before a strict text that is not empty make a strict text (R55). -/
theorem StrictForm.cons {b rest : List Byte} (hb : isBlock b = true) (hrest : rest ≠ []) (h : StrictForm rest) :
    StrictForm (b ++ sep :: rest) := by
  obtain ⟨bs, hbs, rfl⟩ := h
  cases bs with
  | nil => exact absurd rfl hrest
  | cons c bs => exact ⟨b :: c :: bs, List.forall_mem_cons.mpr ⟨hb, hbs⟩, rfl⟩

/-- A text that passes CHKS is empty, one block, or a block, a separator and a shorter text that passes. -/
theorem strictForm_of_strictCheck {text : List Byte} {S : Nat → Byte} (hread : Reads S text)
    (hcheck : strictCheck S text.length = true) : StrictForm text := by
  match text with
  | [] => exact ⟨[], by simp, rfl⟩
  | [_] | [_, _] | [_, _, _] | [_, _, _, _, _] => simp [strictCheck] at hcheck
  | [c₀, c₁, c₂, c₃] =>
    simp only [reads_cons] at hread
    obtain ⟨rfl, rfl, rfl, rfl, -⟩ := hread
    have hblock := isBlock_iff.mpr ⟨_, _, _, _, rfl, (strictCheck_four S).mp hcheck⟩
    exact ⟨[_], by simpa using hblock, rfl⟩
  | c₀ :: c₁ :: c₂ :: c₃ :: c₄ :: c :: rest =>
    obtain ⟨rfl, rfl, rfl, rfl, rfl, hrest⟩ : S 0 = c₀ ∧ S 1 = c₁ ∧ S 2 = c₂ ∧ S 3 = c₃ ∧ S 4 = c₄ ∧
      Reads (fun i => S (i + 5)) (c :: rest) := by simpa using hread
    obtain ⟨hvalid, hsep, htail⟩ := (strictCheck_add_five S (by simp)).mp hcheck
    rw [isSep_iff.mp hsep]
    exact StrictForm.cons (isBlock_iff.mpr ⟨_, _, _, _, rfl, hvalid⟩) (by simp) (strictForm_of_strictCheck hrest htail)
termination_by text.length

/-- CHKS after its first line decides the grammar `strict` (R55, R86). -/
theorem strictCheck_iff {S : Nat → Byte} {text : List Byte} (hread : Reads S text) :
    strictCheck S text.length = true ↔ StrictForm text := by
  refine ⟨strictForm_of_strictCheck hread, ?_⟩
  rintro ⟨bs, hbs, rfl⟩
  exact strictCheck_joinBlocks hbs hread

/-! ## CHKA: the text after separator stripping -/

/-- What R87 asks of the symbols `rest` after a padding digit of padding `p`. -/
def AcceptableData (p : Nat) (rest : List Byte) : Prop :=
  rest.all valid = true ∧ rest.length % 8 = 0 ∧ (rest = [] → p = 0) ∧ (rest ≠ [] → endChk p (lastEight rest) = true)

/-- A text with a valid padding digit is acceptable when its data is. -/
theorem acceptable_iff_of_digit {text rest : List Byte} {d : Byte} {p : Nat} (hstrip : strip text = d :: rest)
    (hdigit : padDec d = some p) : Acceptable text ↔ AcceptableData p rest := by
  constructor
  · rintro ⟨d', p', rest', hstrip', hdigit', hdata⟩
    obtain ⟨rfl, rfl⟩ := List.cons.inj (hstrip.symm.trans hstrip')
    obtain rfl := Option.some.inj (hdigit.symm.trans hdigit')
    exact hdata
  · exact fun hdata => ⟨d, p, rest, hstrip, hdigit, hdata⟩

/-- The ending check looks at eight symbols (R72). -/
theorem endChk_congr {p : Nat} {T T' : Nat → SymVal} (h : ∀ t < 8, T t = T' t) : endChk p T = endChk p T' := by
  unfold endChk
  cases padEndRom p with
  | none => rfl
  | some e =>
    have hall : (List.range 8).all (fun t => decide (t ≤ 7 - e.zcount) || T t == 0) =
        (List.range 8).all (fun t => decide (t ≤ 7 - e.zcount) || T' t == 0) :=
      Bool.eq_iff_iff.mpr (by simp +contextual [h])
    simp only [hall, h (7 - e.zcount) (by omega)]

/-- Padding 0 has no ending to check (R27). -/
theorem endChk_zero (T : Nat → SymVal) : endChk 0 T = true := rfl

section
variable {S : Config.ReadSite → Nat → Byte} {text : List Byte}

/-- The eight symbols CHKA looks at are the last of the data (R72, R87). -/
theorem sym2val_ending_eq_lastEight {xs : List Nat} (hlen : 8 ≤ xs.length) {t : Nat} (ht : t < 8) :
    sym2val (S .ending (xs.getD (xs.length - 8 + t) 0)) = lastEight (xs.map (S .ending)) t := by
  simp [lastEight, List.getD_eq_getElem?_getD, List.getElem?_eq_getElem (show xs.length - 8 + t < xs.length by omega)]

variable (hread : ∀ site, Reads (S site) text)
include hread

/-- At the indices of the non-separators every site reads the text after separator stripping (R9, R80). -/
theorem map_nonsep_scan (site : Config.ReadSite) : (nonsep (S .scan) text.length).map (S site) = strip text := by
  rw [nonsep_congr (S' := S site) fun i hi => (hread .scan i hi).trans (hread site i hi).symm, map_nonsep,
    range_map_getD text (hread site)]

/-- A text of separators has no padding digit (R87). -/
theorem acceptCheck_of_strip_nil (hstrip : strip text = []) : acceptCheck S text.length = (false, none) := by
  have hscan : nonsep (S .scan) text.length = [] := List.map_eq_nil_iff.mp ((map_nonsep_scan hread .scan).trans hstrip)
  rw [acceptCheck, hscan]

section
variable {d : Byte} {rest : List Byte} (hstrip : strip text = d :: rest)
include hstrip

/-- The index of the first character and those of the data, whichever site reads them. -/
theorem exists_nonsep_of_strip : ∃ x xs, nonsep (S .scan) text.length = x :: xs ∧
    ∀ site, S site x = d ∧ xs.map (S site) = rest := by
  have hmap := fun site => (map_nonsep_scan hread site).trans hstrip
  obtain ⟨x, xs, hscan, -⟩ := List.map_eq_cons_iff.mp (hmap .scan)
  rw [hscan] at hmap
  exact ⟨x, xs, hscan, fun site => List.cons.inj (hmap site)⟩

/-- A first character that is no padding digit is refused, and no padding is parsed (R87). -/
theorem acceptCheck_of_not_digit (hdigit : padDec d = none) : acceptCheck S text.length = (false, none) := by
  obtain ⟨x, xs, hscan, hreads⟩ := exists_nonsep_of_strip hread hstrip
  obtain ⟨hx, -⟩ := hreads .digit
  simp only [acceptCheck, hscan, hx, hdigit]

/-- After a padding digit the answer is about the data: none, a broken group, or whole groups with their ending (R87). -/
theorem acceptCheck_of_digit {p : Nat} (hdigit : padDec d = some p) :
    ((acceptCheck S text.length).1 = true ↔ AcceptableData p rest) ∧ (acceptCheck S text.length).2 = some p := by
  obtain ⟨x, xs, hscan, hreads⟩ := exists_nonsep_of_strip hread hstrip
  obtain ⟨hx, -⟩ := hreads .digit
  obtain ⟨-, hcheck⟩ := hreads .check
  obtain ⟨-, hlast⟩ := hreads .ending
  have hlen : xs.length = rest.length := by rw [← hcheck, List.length_map]
  have hsymbols : xs.all (fun y => valid (S .check y)) = rest.all valid := by
    rw [← hcheck, List.all_map]
    rfl
  simp only [acceptCheck, hscan, hx, hdigit, hsymbols, hlen, AcceptableData, and_true]
  by_cases hnil : rest = []
  · simp [hnil]
  by_cases hgroups : rest.length % 8 = 0
  · have hpos : 0 < rest.length := List.length_pos_iff.mpr hnil
    have hending : endChk p (fun t => sym2val (S .ending (xs.getD (rest.length - 8 + t) 0))) = endChk p (lastEight rest) :=
      endChk_congr fun t ht => by rw [← hlen, sym2val_ending_eq_lastEight (by omega) ht, hlast]
    rw [hending]
    by_cases hp : p = 0
    · simp [hnil, hgroups, hp, endChk_zero]
    · simp [hnil, hgroups, hp]
  · simp [hnil, hgroups]

end

/-- CHKA answers whether the text is acceptable, and parses the padding of its digit (R87). -/
theorem acceptCheck_spec : ((acceptCheck S text.length).1 = true ↔ Acceptable text) ∧
    (acceptCheck S text.length).2 = (strip text).head?.bind padDec := by
  cases hstrip : strip text with
  | nil => simp [acceptCheck_of_strip_nil hread hstrip, Acceptable, hstrip]
  | cons d rest =>
    cases hdigit : padDec d with
    | none => simp [acceptCheck_of_not_digit hread hstrip hdigit, Acceptable, hstrip, hdigit]
    | some p =>
      rw [acceptable_iff_of_digit hstrip hdigit, List.head?_cons, Option.bind_some, hdigit]
      exact acceptCheck_of_digit hread hstrip hdigit

end

/-! ## CHKW: the cadence -/

/-- The cadence test on more than two characters: a separator stands at index 1 and wherever CHKS wants one, two characters later
(R88). -/
theorem cadenceCheck_of_ne_zero (S : Nat → Byte) {n : Nat} (hn : n ≠ 0) :
    cadenceCheck S (n + 2) = true ↔
      isSep (S 0) = false ∧ isSep (S 1) = true ∧ n % 5 = 4 ∧ ∀ i < n, decide (i % 5 = 4) = isSep (S (i + 2)) := by
  have hmod (i : Nat) : (i + 2) % 5 = 1 ↔ i % 5 = 4 := by omega
  have hcells : (∀ i < n + 2, i ≤ 1 ∨ decide (i % 5 = 1) = isSep (S i)) ↔ ∀ i < n, decide (i % 5 = 4) = isSep (S (i + 2)) := by
    simp only [Nat.forall_lt_succ_left, Nat.add_assoc, Nat.reduceAdd, hmod]
    simp
  simp [cadenceCheck, hn, hmod, hcells]

/-- The cadence test where what is no separator is a symbol: a character, a separator, and what passes CHKS. -/
theorem cadenceCheck_add_two {S : Nat → Byte} {n : Nat} (hsymbols : ∀ i < n + 2, isSep (S i) = false → valid (S i) = true) :
    cadenceCheck S (n + 2) = true ↔
      isSep (S 0) = false ∧ isSep (S 1) = true ∧ strictCheck (fun i => S (i + 2)) n = true := by
  by_cases hn : n = 0
  · simp [cadenceCheck, strictCheck, hn]
  · have hcell : ∀ i < n, decide (i % 5 = 4) = isSep (S (i + 2)) ↔
        (if i % 5 = 4 then isSep (S (i + 2)) else valid (S (i + 2))) = true := by
      intro i hi
      have hexcl : isSep (S (i + 2)) = false ↔ valid (S (i + 2)) = true := ⟨hsymbols (i + 2) (by omega), isSep_of_valid⟩
      rw [eq_comm]
      by_cases h4 : i % 5 = 4
      · simp [h4]
      · simp [h4, hexcl]
    rw [cadenceCheck_of_ne_zero S hn, strictCheck_of_ne_zero _ hn, forall₂_congr hcell]

/-- In an acceptable text every character that is no separator is a symbol. -/
theorem Acceptable.valid_of_not_sep {text : List Byte} (h : Acceptable text) : ∀ c ∈ text, isSep c = false → valid c = true := by
  intro c hc hsep
  obtain ⟨d, p, rest, hstrip, hdigit, hvalid, -⟩ := h
  have hmem : c ∈ strip text := List.mem_filter.mpr ⟨hc, by simp [hsep]⟩
  rw [hstrip, List.mem_cons] at hmem
  rcases hmem with rfl | hrest
  · exact valid_of_padDec hdigit
  · exact List.all_eq_true.mp hvalid c hrest

/-- The texts CHKW accepts among the acceptable ones. -/
theorem cadenceCheck_iff {S : Nat → Byte} {text : List Byte} (hread : Reads S text)
    (hsymbols : ∀ c ∈ text, isSep c = false → valid c = true) :
    cadenceCheck S text.length = true ↔ ∃ d rest, text = d :: sep :: rest ∧ isSep d = false ∧ StrictForm rest := by
  match text with
  | [] | [_] => simp [cadenceCheck]
  | d :: c :: rest =>
    obtain ⟨rfl, rfl, hrest⟩ : S 0 = d ∧ S 1 = c ∧ Reads (fun i => S (i + 2)) rest := by simpa using hread
    rw [List.length_cons, List.length_cons, cadenceCheck_add_two, strictCheck_iff hrest, isSep_iff]
    · constructor
      · rintro ⟨hdigit, hsep, hstrict⟩
        exact ⟨S 0, rest, by rw [hsep], hdigit, hstrict⟩
      · rintro ⟨d, rest', htext, hdigit, hstrict⟩
        obtain ⟨rfl, hsep, rfl⟩ : S 0 = d ∧ S 1 = sep ∧ rest = rest' := by simpa using htext
        exact ⟨hdigit, hsep, hstrict⟩
    · intro i hi
      rw [hread i hi]
      exact hsymbols _ (List.getElem_mem hi)

/-! ## The normal form (R54) -/

theorem strip_append (l₁ l₂ : List Byte) : strip (l₁ ++ l₂) = strip l₁ ++ strip l₂ := List.filter_append ..

theorem strip_sep_cons (text : List Byte) : strip (sep :: text) = strip text := rfl

theorem strip_cons_of_not_sep {c : Byte} (h : isSep c = false) (text : List Byte) : strip (c :: text) = c :: strip text :=
  List.filter_cons_of_pos (by simp [h])

/-- A text of symbols has nothing to strip. -/
theorem strip_eq_self_of_valid {text : List Byte} (h : text.all valid = true) : strip text = text := by
  rw [strip, List.filter_eq_self]
  intro c hc
  simp [isSep_of_valid (List.all_eq_true.mp h c hc)]

/-- Stripping leaves the symbols of the blocks. -/
theorem strip_joinBlocks {bs : List (List Byte)} (hbs : ∀ b ∈ bs, isBlock b = true) : strip (joinBlocks bs) = bs.flatten := by
  induction bs using joinBlocks.induct with
  | case1 => rfl
  | case2 b =>
    obtain ⟨-, hvalid⟩ := isBlock_iff_length.mp (hbs b (by simp))
    simp [joinBlocks, strip_eq_self_of_valid hvalid]
  | case3 b c bs ih =>
    obtain ⟨-, hvalid⟩ := isBlock_iff_length.mp (hbs b (by simp))
    have hrest : strip (joinBlocks (c :: bs)) = (c :: bs).flatten := ih fun x hx => hbs x (List.mem_cons_of_mem _ hx)
    rw [joinBlocks, strip_append, strip_sep_cons, strip_eq_self_of_valid hvalid, hrest, ← List.flatten_cons]

/-- The symbols of blocks, and their number. -/
theorem flatten_blocks {bs : List (List Byte)} (hbs : ∀ b ∈ bs, isBlock b = true) :
    bs.flatten.all valid = true ∧ bs.flatten.length = 4 * bs.length := by
  induction bs with
  | nil => exact ⟨rfl, rfl⟩
  | cons b bs ih =>
    obtain ⟨hlen, hvalid⟩ := isBlock_iff_length.mp (hbs b (by simp))
    obtain ⟨ihvalid, ihlen⟩ := ih fun x hx => hbs x (List.mem_cons_of_mem _ hx)
    rw [List.flatten_cons, List.all_append, hvalid, ihvalid, List.length_append, hlen, ihlen, List.length_cons]
    exact ⟨rfl, by omega⟩

/-- Blocks are acceptable data when their number is even and the ending is allowed. -/
theorem acceptableData_flatten {p : Nat} {bs : List (List Byte)} (hbs : ∀ b ∈ bs, isBlock b = true) :
    AcceptableData p bs.flatten ↔
      bs.length % 2 = 0 ∧ (bs = [] → p = 0) ∧ (bs ≠ [] → endChk p (lastEight bs.flatten) = true) := by
  obtain ⟨hvalid, hlength⟩ := flatten_blocks hbs
  have hnil : bs.flatten = [] ↔ bs = [] := by
    rw [← List.length_eq_zero_iff, ← List.length_eq_zero_iff, hlength]
    omega
  simp only [AcceptableData, hvalid, hlength, hnil, true_and, ne_eq, show 4 * bs.length % 8 = 0 ↔ bs.length % 2 = 0 by omega]

/-- The grammar `normal` is acceptability in the cadence (R54, R88). -/
theorem normalForm_iff {text : List Byte} :
    NormalForm text ↔ Acceptable text ∧ ∃ d rest, text = d :: sep :: rest ∧ isSep d = false ∧ StrictForm rest := by
  constructor
  · rintro ⟨d, p, bs, hdigit, hbs, heven, hnone, hending, rfl⟩
    have hsep := isSep_of_valid (valid_of_padDec hdigit)
    refine ⟨(acceptable_iff_of_digit ?_ hdigit).mpr ((acceptableData_flatten hbs).mpr ⟨heven, hnone, hending⟩),
      d, _, rfl, hsep, bs, hbs, rfl⟩
    rw [strip_cons_of_not_sep hsep, strip_sep_cons, strip_joinBlocks hbs]
  · rintro ⟨⟨d', p, rest, hstrip, hdigit, hdata⟩, d, _, rfl, hsep, bs, hbs, rfl⟩
    rw [strip_cons_of_not_sep hsep, strip_sep_cons, strip_joinBlocks hbs] at hstrip
    obtain ⟨rfl, rfl⟩ := List.cons.inj hstrip
    obtain ⟨heven, hnone, hending⟩ := (acceptableData_flatten hbs).mp hdata
    exact ⟨d, p, bs, hdigit, hbs, heven, hnone, hending, rfl⟩

/-! ## How a predicate that started ends -/

/-- A predicate's end in a started state, with the padding it noted (R20, R85). -/
theorem State.answered_notePad {s : State} (hs : s.started) (b : Bool) {q : Option Nat} (hq : ∀ p, q = some p → p ≤ 4) :
    ((s.notePad q).answer b).answered s b (q.getD 0) := by
  obtain ⟨-, -, -, herr, holen, hepos, hechar, hpad⟩ := hs
  cases q with
  | none => simp [State.answered, State.ended, herr, holen, hepos, hechar, hpad]
  | some p => simp [State.answered, State.ended, herr, holen, hepos, hechar, toNat_pad_of_le_four (hq p rfl)]

/-- A predicate's end in a started state when it notes no padding (R85). -/
theorem State.answered_answer {s : State} (hs : s.started) (b : Bool) : (s.answer b).answered s b 0 :=
  State.answered_notePad hs b (q := none) nofun

section
variable {s : State}

/-- On absent input the three predicates are false (R85). -/
theorem exec_predicate_of_absent {i : Instr} (hi : i ∈ [Instr.chkw, .chka, .chks]) (hin : s.inValid = false) :
    exec i s = .next (s.answer false) := by
  simp only [List.mem_cons, List.not_mem_nil, or_false] at hi
  rcases hi with rfl | rfl | rfl
  · simp only [exec, execChkw, hin, Bool.not_false, if_true]
  · simp only [exec, execChka, hin, Bool.not_false, if_true]
  · simp only [exec, execChks, hin, Bool.not_false, if_true]

variable {text : List Byte} (h : s.holds text)
include h

theorem exec_chks_of_holds : exec .chks s = .next (s.answer (strictCheck (s.readIbuf .cadence) text.length)) := by
  obtain ⟨hin, hlen, -⟩ := h
  simp only [exec, execChks, hin, hlen, Bool.not_true, Bool.false_eq_true, if_false]

theorem exec_chka_of_holds : exec .chka s = .next ((s.notePad (acceptCheck s.readIbuf text.length).2).answer
    (acceptCheck s.readIbuf text.length).1) := by
  obtain ⟨hin, hlen, -⟩ := h
  simp only [exec, execChka, hin, hlen, Bool.not_true, Bool.false_eq_true, if_false]

theorem exec_chkw_of_holds : exec .chkw s = .next ((s.notePad (acceptCheck s.readIbuf text.length).2).answer
    ((acceptCheck s.readIbuf text.length).1 && cadenceCheck (s.readIbuf .cadence) text.length)) := by
  obtain ⟨hin, hlen, -⟩ := h
  simp only [exec, execChkw, hin, hlen, Bool.not_true, Bool.false_eq_true, if_false]

end

/-! ## The statements -/

/-- Settles O17: every read of CHKS is a byte of the text, and on the text its loop decides the grammar (`strictCheck_iff`). -/
theorem chksAcceptsExactlyTheStrictForm : Obligations.ChksAcceptsExactlyTheStrictForm := by
  intro s hs
  refine ⟨fun hin => ⟨_, exec_predicate_of_absent (by simp) hin, State.answered_answer hs false⟩,
    fun text h => ⟨_, exec_chks_of_holds h, State.answered_answer hs _, ?_⟩⟩
  exact strictCheck_iff (reads_of_holds h .cadence)

/-- Settles O18: every read of CHKA is a byte of the text, so its answer and its padding are those of the text after separator
stripping (`acceptCheck_spec`). -/
theorem chkaAcceptsExactlyTheAcceptable : Obligations.ChkaAcceptsExactlyTheAcceptable := by
  intro s hs
  refine ⟨fun hin => ⟨_, exec_predicate_of_absent (by simp) hin, State.answered_answer hs false⟩,
    fun text h => ⟨_, exec_chka_of_holds h, ?_⟩⟩
  obtain ⟨hanswer, hpad⟩ := acceptCheck_spec (reads_of_holds h)
  exact ⟨hpad ▸ State.answered_notePad hs _ fun _ => acceptCheck_pad_le, hanswer⟩

/-- Settles O19: CHKW's answer is CHKA's and the cadence, and the grammar `normal` is acceptability in the cadence
(`normalForm_iff`, `cadenceCheck_iff`). -/
theorem chkwAcceptsExactlyTheNormalForm : Obligations.ChkwAcceptsExactlyTheNormalForm := by
  intro s hs
  refine ⟨fun hin => ⟨_, exec_predicate_of_absent (by simp) hin, State.answered_answer hs false⟩,
    fun text h => ⟨_, exec_chkw_of_holds h, ?_⟩⟩
  obtain ⟨hanswer, hpad⟩ := acceptCheck_spec (reads_of_holds h)
  refine ⟨hpad ▸ State.answered_notePad hs _ fun _ => acceptCheck_pad_le, ?_⟩
  rw [State.answer_result, Bool.and_eq_true, hanswer, normalForm_iff]
  exact and_congr_right fun hacc => cadenceCheck_iff (reads_of_holds h .cadence) hacc.valid_of_not_sep

end Sys2Proof.Machine

/-! The reserved command from a started state (R103). -/

namespace Sys2Proof.Machine

/-- The reserved command is the fault `E_ILL` and nothing else; it does not look at `IN_VALID` (R103). -/
theorem exec_rsvd (s : State) : exec .rsvd s = .next (s.raise .ill) := rfl

/-- Settles O12: the fault is taken at once, so the other results are those `START` cleared (`State.faulted_raise`). -/
theorem reservedCommandFaultsAtOnce : Obligations.ReservedCommandFaultsAtOnce :=
  fun s hs => ⟨s.raise .ill, exec_rsvd s, State.faulted_raise hs .ill⟩

end Sys2Proof.Machine

/-! The host writes that are ignored (R12, R21, R112). -/

namespace Sys2Proof.Machine

/-- A write of a read-only register does nothing, busy or not (R12, R112). -/
theorem State.hostWriteReg_of_readOnly (s : State) {r : HostReg} (hr : r ∈ [HostReg.status, .olen, .epos, .echar, .pad]) (v : Nat) :
    s.hostWriteReg r v = s := by
  fin_cases hr <;> exact ite_self s

/-- A write of `OBUF` does nothing, busy or not (R112). -/
@[simp] theorem State.hostWriteCell_obuf (s : State) (i : Nat) (v : Byte) : s.hostWriteCell .obuf i v = s := rfl

/-- A host write of a cell the buffer has reaches the buffer (R21, R22). -/
theorem hostAct_writeCell_of_lt {s : State} {b : Buffer} {i : Nat} (h : i < s.bufMax b) (v : Byte) :
    hostAct (.writeCell b i v) s = .next (s.hostWriteCell b i v) := if_pos h

/-- Settles O49: `BUSY` locks every register and `IBUF` (`State.hostWriteReg_of_busy`, `State.hostWriteCell_of_busy`); the read-only
registers and `OBUF` take no write in either case (`State.hostWriteReg_of_readOnly`, `State.hostWriteCell_obuf`). -/
theorem lockedWritesAreIgnored : Obligations.LockedWritesAreIgnored := by
  refine fun s => ⟨fun hbusy => ⟨fun r v => ?_, fun a b ha => ?_⟩, fun v r hr => ?_, fun a b ha => ?_⟩
  · exact congrArg Host.Outcome.next (State.hostWriteReg_of_busy hbusy r v)
  · rw [hostAct_writeCell_of_lt (b := .ibuf) ha, State.hostWriteCell_of_busy hbusy]
  · exact congrArg Host.Outcome.next (s.hostWriteReg_of_readOnly hr v)
  · rw [hostAct_writeCell_of_lt (b := .obuf) ha, State.hostWriteCell_obuf]

end Sys2Proof.Machine

/-! The bits of the functional units: the barrel forms (R66, R69), the order of unpacking (R38), the inverses on whole groups (R71) and
the ending check (R72, R73). -/

namespace Sys2Proof.Machine

/-! ## Bit streams -/

/-- A symbol value is its five bits, the most significant first (R34). -/
theorem symVal_eq_of_bits {v w : SymVal} (h : ∀ u < 5, v.getLsbD (4 - u) = w.getLsbD (4 - u)) : v = w := by
  refine BitVec.eq_of_getLsbD_eq fun i hi => ?_
  have hbit := h (4 - i) (by omega)
  rwa [show 4 - (4 - i) = i by omega] at hbit

/-- A byte is its eight bits, the most significant first (R34). -/
theorem byte_eq_of_bits {b c : Byte} (h : ∀ t < 8, b.getLsbD (7 - t) = c.getLsbD (7 - t)) : b = c := by
  refine BitVec.eq_of_getLsbD_eq fun i hi => ?_
  have hbit := h (7 - i) (by omega)
  rwa [show 7 - (7 - i) = i by omega] at hbit

theorem streamBit_byte (B : Nat → Byte) (j : Nat) {t : Nat} (ht : t < 8) : streamBit B (8 * j + t) = (B j).getLsbD (7 - t) := by
  rw [streamBit, show (8 * j + t) / 8 = j by omega, show (8 * j + t) % 8 = t by omega]

theorem symbolBit_symbol (V : Nat → SymVal) (k : Nat) {u : Nat} (hu : u < 5) : symbolBit V (5 * k + u) = (V k).getLsbD (4 - u) := by
  rw [symbolBit, show (5 * k + u) / 5 = k by omega, show (5 * k + u) % 5 = u by omega]

/-- A value is what PACKSYM makes of the payload when its bits are the payload's, 0 past the end (R34, R65). -/
theorem packSym_eq_of_bits {B : Nat → Byte} {L k : Nat} {v : SymVal}
    (h : ∀ u < 5, v.getLsbD (4 - u) = (decide ((5 * k + u) / 8 < L) && streamBit B (5 * k + u))) : packSym B L k = v :=
  symVal_eq_of_bits fun u hu => by rw [packSym_bit B L k u hu, h u hu]

/-! ## The barrel forms -/

theorem zeroPast_lt (B : Nat → Byte) (L j : Nat) : zeroPast B L j < 256 := by
  unfold zeroPast
  split
  · exact (B j).isLt
  · decide

/-- Two adjacent bytes as a window: the second fills the low eight bits. -/
theorem window_eq_or {b : Nat} (a : Nat) (hb : b < 256) : a * 256 + b = a <<< 8 ||| b := by
  rw [← Nat.shiftLeft_add_eq_or_of_lt (i := 8) hb, Nat.shiftLeft_eq]

/-- Settles O38: the shift splits the window into its two bytes; up to offset 3 the second one is shifted out. -/
theorem packerEqualsItsBarrelForm : Obligations.PackerEqualsItsBarrelForm := by
  intro B L k
  simp only [packSym, packSymBarrel, window_eq_or _ (zeroPast_lt B L _), Nat.shiftRight_or_distrib]
  have hlow := zeroPast_lt B L (5 * k / 8 + 1)
  split
  case isTrue hoff =>
    have hnone : zeroPast B L (5 * k / 8 + 1) >>> (11 - 5 * k % 8) = 0 := by
      rw [show 11 - 5 * k % 8 = 8 + (3 - 5 * k % 8) by omega, Nat.shiftRight_add, Nat.shiftRight_eq_div_pow _ 8, Nat.div_eq_of_lt hlow,
        Nat.zero_shiftRight]
    rw [hnone, Nat.or_zero, show 11 - 5 * k % 8 = 8 + (3 - 5 * k % 8) by omega, Nat.shiftRight_add, Nat.shiftLeft_shiftRight]
  case isFalse hoff =>
    have hhigh : zeroPast B L (5 * k / 8) <<< 8 = zeroPast B L (5 * k / 8) <<< (5 * k % 8 - 3) <<< (11 - 5 * k % 8) := by
      rw [← Nat.shiftLeft_add, show 5 * k % 8 - 3 + (11 - 5 * k % 8) = 8 by omega]
    rw [hhigh, Nat.shiftLeft_shiftRight]

/-- A contribution without a bit changes nothing. -/
theorem orAt_zero (W : List Byte) (j : Nat) : orAt W j 0 = W := by
  have hid : (fun w : Byte => w ||| 0) = id := funext fun w => BitVec.or_zero
  rw [orAt, hid, List.modify_id]

/-- A contribution to byte `j`, dropped outside the output (R68). -/
def orInside (nb j : Nat) (b : Byte) (W : List Byte) : List Byte := if j < nb then orAt W j b else W

/-- The high byte of the window of UNPACK (R69). -/
def windowHigh (i : Nat) (v : SymVal) : Byte := BitVec.ofNat 8 (v.toNat <<< (11 - 5 * i % 8) >>> 8)

/-- The low byte of the window of UNPACK (R69). -/
def windowLow (i : Nat) (v : SymVal) : Byte := BitVec.ofNat 8 (v.toNat <<< (11 - 5 * i % 8) &&& 0xFF)

theorem unpackBarrel_eq (W : List Byte) (nb i : Nat) (v : SymVal) :
    unpackBarrel W nb i v = orInside nb (5 * i / 8 + 1) (windowLow i v) (orInside nb (5 * i / 8) (windowHigh i v) W) := rfl

/-- Up to offset 3 the symbol lies in one byte: the window's low byte is empty. -/
theorem windowLow_of_lt_four {i : Nat} (h : 5 * i % 8 < 4) (v : SymVal) : windowLow i v = 0 := by
  have hzero : v.toNat <<< (11 - 5 * i % 8) &&& 0xFF = 0 := by
    rw [show (0xFF : Nat) = 2 ^ 8 - 1 from rfl, Nat.and_two_pow_sub_one_eq_mod, show 11 - 5 * i % 8 = (3 - 5 * i % 8) + 8 by omega,
      Nat.shiftLeft_add, Nat.shiftLeft_eq _ 8]
    exact Nat.mul_mod_left ..
  simp [windowLow, hzero]

theorem windowHigh_of_lt_four {i : Nat} (h : 5 * i % 8 < 4) (v : SymVal) :
    windowHigh i v = BitVec.ofNat 8 (v.toNat <<< (3 - 5 * i % 8) &&& 0xFF) := by
  rw [windowHigh, show 11 - 5 * i % 8 = (3 - 5 * i % 8) + 8 by omega, Nat.shiftLeft_add, Nat.shiftLeft_shiftRight,
    show (0xFF : Nat) = 2 ^ 8 - 1 from rfl, Nat.and_two_pow_sub_one_eq_mod]
  apply BitVec.eq_of_toNat_eq
  simp

theorem windowHigh_of_four_le {i : Nat} (h : 4 ≤ 5 * i % 8) (v : SymVal) :
    windowHigh i v = BitVec.ofNat 8 (v.toNat >>> (5 * i % 8 - 3)) := by
  have hshift (n : Nat) : n >>> 8 = n >>> (11 - 5 * i % 8) >>> (5 * i % 8 - 3) := by
    rw [← Nat.shiftRight_add, show 11 - 5 * i % 8 + (5 * i % 8 - 3) = 8 by omega]
  rw [windowHigh, hshift, Nat.shiftLeft_shiftRight]

/-- Settles O39: up to offset 3 the window's low byte is empty, past it the two bytes are those of UNPACK. -/
theorem unpackerEqualsItsBarrelForm : Obligations.UnpackerEqualsItsBarrelForm := by
  intro W nb i v
  rw [unpackBarrel_eq]
  unfold unpack
  by_cases hoff : 5 * i % 8 < 4
  · simp only [if_pos hoff, windowLow_of_lt_four hoff, windowHigh_of_lt_four hoff, orInside, orAt_zero, ite_self]
  · simp only [if_neg hoff, windowHigh_of_four_le (by omega : 4 ≤ 5 * i % 8), orInside, windowLow]

/-! ## The order of unpacking -/

theorem orAt_comm (W : List Byte) (j k : Nat) (b c : Byte) : orAt (orAt W j b) k c = orAt (orAt W k c) j b := by
  apply List.ext_getElem?
  intro x
  simp only [orAt, List.getElem?_modify, Option.map_eq_map, Option.map_map]
  congr 1
  funext w
  by_cases hj : j = x <;> by_cases hk : k = x <;> simp [hj, hk, BitVec.or_assoc, BitVec.or_comm b c]

theorem orInside_comm (nb j k : Nat) (b c : Byte) (W : List Byte) :
    orInside nb k c (orInside nb j b W) = orInside nb j b (orInside nb k c W) := by
  unfold orInside
  split
  · split
    · exact orAt_comm ..
    · rfl
  · rfl

/-- Settles O41: UNPACK is two contributions (`unpackerEqualsItsBarrelForm`), and contributions commute. -/
theorem unpackingOrderDoesNotMatter : Obligations.UnpackingOrderDoesNotMatter := by
  intro W nb i k v w
  simp only [unpackerEqualsItsBarrelForm _, unpackBarrel_eq]
  rw [orInside_comm nb (5 * i / 8 + 1) (5 * k / 8), orInside_comm nb (5 * i / 8 + 1) (5 * k / 8 + 1),
    orInside_comm nb (5 * i / 8) (5 * k / 8), orInside_comm nb (5 * i / 8) (5 * k / 8 + 1)]

/-! ## Packer and unpacker -/

/-- The symbols of indices `0 .. n-1` unpacked into a byte array. -/
def unpackTo (nb : Nat) (V : Nat → SymVal) (n : Nat) : List Byte :=
  (List.range n).foldl (fun W k => unpack W nb k (V k)) (List.replicate nb 0)

theorem unpackTo_succ (nb : Nat) (V : Nat → SymVal) (n : Nat) :
    unpackTo nb V (n + 1) = unpack (unpackTo nb V n) nb n (V n) := by
  simp [unpackTo, List.range_succ]

@[simp] theorem length_unpackTo (nb : Nat) (V : Nat → SymVal) (n : Nat) : (unpackTo nb V n).length = nb := by
  induction n with
  | zero => simp [unpackTo]
  | succ n ih => rw [unpackTo_succ, length_unpack, ih]

/-- The bytes' stream is the symbols' stream, 0 past the symbols unpacked so far (R34, R71). -/
theorem unpackTo_bit (V : Nat → SymVal) {nb n j t : Nat} (hj : j < nb) (ht : t < 8) :
    ((unpackTo nb V n).getD j 0).getLsbD (7 - t) = (decide (8 * j + t < 5 * n) && symbolBit V (8 * j + t)) := by
  induction n with
  | zero => simp [unpackTo, hj]
  | succ n ih =>
    rw [unpackTo_succ, unpack_bit _ _ _ _ _ _ (length_unpackTo ..) hj ht, ih]
    by_cases hlast : 5 * n ≤ 8 * j + t ∧ 8 * j + t < 5 * n + 5
    · obtain ⟨u, hu⟩ := Nat.exists_eq_add_of_le hlast.1
      rw [hu, symbolBit_symbol V n (by omega)]
      simp [show 5 * n + u < 5 * (n + 1) by omega, show u < 5 by omega]
    · have hsame : decide (8 * j + t < 5 * (n + 1)) = decide (8 * j + t < 5 * n) := decide_eq_decide.mpr (by omega)
      simp [hlast, hsame]

/-- Settles O40: in both directions the bits are those of one stream (`packSym_bit`, `unpackTo_bit`), and on whole groups neither side
cuts any. -/
theorem packerAndUnpackerAreInverse : Obligations.PackerAndUnpackerAreInverse := by
  refine ⟨fun B hB => ?unpackPacked, fun V hV k hk => ?packUnpacked⟩
  case unpackPacked =>
    change unpackTo B.length (packSym (fun j => B.getD j 0) B.length) (nsym B.length) = B
    have hbits := (nsym_bounds B.length).1
    refine List.ext_getElem (length_unpackTo ..) fun j hj hj' => byte_eq_of_bits fun t ht => ?_
    rw [List.getElem_eq_getD 0, unpackTo_bit _ hj' ht, symbolBit, packSym_bit _ _ _ _ (Nat.mod_lt _ (by decide)),
      Nat.div_add_mod, streamBit_byte _ _ ht, decide_eq_true (by omega), decide_eq_true (by omega), ← List.getElem_eq_getD]
    rfl
  case packUnpacked =>
    change packSym (fun j => (unpackTo (nbytes V.length) (fun k => V.getD k 0) V.length).getD j 0) _ k = _
    have hlen : 8 * nbytes V.length = 5 * V.length := by unfold nbytes; omega
    refine packSym_eq_of_bits fun u hu => ?_
    rw [streamBit, unpackTo_bit _ (by omega) (Nat.mod_lt _ (by decide)), Nat.div_add_mod, symbolBit_symbol _ _ hu,
      decide_eq_true (by omega), decide_eq_true (by omega)]
    rfl

/-! ## The ending check -/

/-- An entry of `PADEND_ROM` covers the low `8p` bits of the group: `zcount` whole symbols and `lowz` bits of the one before
(R27, R73). -/
theorem padEndRom_covers {p : Nat} (h1 : 1 ≤ p) (h4 : p ≤ 4) :
    ∃ e, padEndRom p = some e ∧ 8 * p = 5 * e.zcount + e.lowz ∧ e.lowz < 5 ∧ e.zcount < 7 := by
  interval_cases p <;> exact ⟨_, rfl, by decide⟩

/-- The low `n` bits of a value are 0 when its last `n` stream bits are. -/
theorem low_bits_eq_zero_iff (v : SymVal) {n : Nat} (hn : n < 5) :
    v.toNat &&& (1 <<< n - 1) = 0 ↔ ∀ u < 5, 5 - n ≤ u → v.getLsbD (4 - u) = false := by
  rw [Nat.one_shiftLeft, Nat.and_two_pow_sub_one_eq_mod]
  constructor
  · intro h u hu hlow
    have hbit : (v.toNat % 2 ^ n).testBit (4 - u) = v.getLsbD (4 - u) := by
      rw [Nat.testBit_mod_two_pow, decide_eq_true (by omega), Bool.true_and, testBit_toNat_eq]
    rw [← hbit, h, Nat.zero_testBit]
  · intro h
    refine Nat.eq_of_testBit_eq fun i => ?_
    rw [Nat.testBit_mod_two_pow, Nat.zero_testBit, Bool.and_eq_false_imp]
    intro hi
    have hi : i < n := of_decide_eq_true hi
    have hbit := h (4 - i) (by omega) (by omega)
    rwa [show 4 - (4 - i) = i by omega] at hbit

theorem eq_zero_iff_bits (v : SymVal) : v = 0 ↔ ∀ u < 5, v.getLsbD (4 - u) = false :=
  ⟨fun h u _ => by simp [h], fun h => symVal_eq_of_bits fun u hu => by simp [h u hu]⟩

/-- The ending check, symbol by symbol (R72). -/
theorem endChk_iff {p : Nat} {e : PadEndEntry} (he : padEndRom p = some e) (T : Nat → SymVal) :
    endChk p T = true ↔
      (∀ t < 8, 7 - e.zcount < t → T t = 0) ∧ (T (7 - e.zcount)).toNat &&& (1 <<< e.lowz - 1) = 0 := by
  simp only [endChk, he, Bool.and_eq_true, List.all_eq_true, List.mem_range, Bool.or_eq_true, decide_eq_true_eq, beq_iff_eq,
    Nat.not_le.symm, Classical.or_iff_not_imp_left]

/-- Settles O42: the low `8p` bits are those of the last `zcount` symbols and the `lowz` low bits of the one before
(`padEndRom_covers`). -/
theorem endingCheckIsZeroPaddingBits : Obligations.EndingCheckIsZeroPaddingBits := by
  intro p T h1 h4
  obtain ⟨e, he, hcover, hlow, hcount⟩ := padEndRom_covers h1 h4
  simp only [endChk_iff he, low_bits_eq_zero_iff _ hlow, eq_zero_iff_bits]
  constructor
  · rintro ⟨hwhole, hpart⟩ n hn h40
    by_cases hlast : 7 - e.zcount < n / 5
    · exact hwhole (n / 5) (by omega) hlast (n % 5) (by omega)
    · rw [symbolBit, show n / 5 = 7 - e.zcount by omega]
      exact hpart (n % 5) (by omega) (by omega)
  · intro h
    refine ⟨fun t ht hlast u hu => ?_, fun u hu hpart => ?_⟩
    · rw [← symbolBit_symbol T t hu]
      exact h _ (by omega) (by omega)
    · rw [← symbolBit_symbol T _ hu]
      exact h _ (by omega) (by omega)

/-! ## The ROMs -/

/-- Settles O35: the four entries, each mask against its 32 values. -/
theorem padEndRomMaskIsItsLowBits : Obligations.PadEndRomMaskIsItsLowBits := by
  constructor
  · intro p
    match p with
    | 0 | 1 | 2 | 3 | 4 => simp [padEndRom]
    | p + 5 => simp [padEndRom]
  · intro p e he
    match p with
    | 0 | p + 5 => simp [padEndRom] at he
    | 1 | 2 | 3 | 4 => cases he; decide

/-- An entry of `DEC_ROM` is one of the listed rows or the default (R26). -/
theorem decRom_cases (c : Byte) : (c, decRom c) ∈ decRomRows ∨ decRom c = ⟨false, false, 0⟩ := by
  cases hrow : decRomRows.lookup c with
  | none => simp [decRom, hrow]
  | some e =>
    obtain ⟨before, after, hsplit, -⟩ := List.lookup_eq_some_iff.mp hrow
    have hentry : decRom c = e := by simp [decRom, hrow]
    simp [hsplit, hentry]

/-- A listed row is the separator's or a symbol's (R26). -/
theorem decRomRows_class : ∀ row ∈ decRomRows, row.2.isSep = true ∨ row.2.valid = true := by
  decide

/-- Settles O34: the separator by `isSep_iff`, the symbols by the alphabet's two inverses; an entry that is neither is not listed, so
it is the default. -/
theorem decRomHoldsTheAlphabetAndNothingElse : Obligations.DecRomHoldsTheAlphabetAndNothingElse := by
  refine ⟨by decide, fun c => isSep_iff, fun c => ⟨fun h => ⟨sym2val c, (val2sym_sym2val h).symm⟩, ?_⟩, ?_, ?_⟩
  · rintro ⟨v, rfl⟩
    exact valid_val2sym v
  · rintro c ⟨hsep, hvalid⟩
    rw [isSep_of_valid hvalid] at hsep
    cases hsep
  · intro c hsep hvalid
    refine (decRom_cases c).resolve_left fun hrow => ?_
    rcases decRomRows_class _ hrow with h | h
    · exact Bool.false_ne_true (hsep.symm.trans h)
    · exact Bool.false_ne_true (hvalid.symm.trans h)

/-! ## The separator cadence -/

/-- Settles O43: index `i` of a text is read as block `(i - 1) / 5` or `i / 5` and a place in the block. -/
theorem separatorsStandAtTheCadence : Obligations.SeparatorsStandAtTheCadence := by
  intro g hg
  simp only [posN, posS]
  refine ⟨fun i hi => ⟨fun h => ?_, ?_⟩, fun i hi h0 => ⟨fun h => ?_, ?_⟩, fun i hi => ⟨fun h => ?_, ?_⟩, fun i hi => ⟨fun h => ?_, ?_⟩,
    fun j k hjk => by omega⟩
  · by_cases h1 : i = 1
    · exact .inl h1
    · exact .inr ⟨4 * (i / 5), by omega, by omega, by omega, by omega⟩
  · rintro (h1 | ⟨k, -, h0, h4, h⟩) <;> omega
  · exact ⟨4 * ((i - 2) / 5) + (i - 2) % 5, by omega, by omega⟩
  · rintro ⟨k, -, h⟩
    omega
  · exact ⟨4 * (i / 5 + 1), by omega, by omega, by omega, by omega⟩
  · rintro ⟨k, -, h0, h4, h⟩
    omega
  · exact ⟨4 * (i / 5) + i % 5, by omega, by omega⟩
  · rintro ⟨k, -, h⟩
    omega

end Sys2Proof.Machine

/-! The encoded texts as byte sequences: blocks of symbols joined by separators (R54, R55, R76 to R78). -/

namespace Sys2Proof.Machine

/-! ## Blocks, cell by cell -/

section
variable {bs : List (List Byte)} (hbs : ∀ b ∈ bs, b.length = 4)
include hbs

/-- Blocks of four with a separator between each two (R89). -/
theorem length_joinBlocks : (joinBlocks bs).length = 5 * bs.length - 1 := by
  induction bs using joinBlocks.induct with
  | case1 => rfl
  | case2 b => simp [joinBlocks, hbs b (by simp)]
  | case3 b c bs ih =>
    have hrest := ih fun x hx => hbs x (List.mem_cons_of_mem _ hx)
    simp only [joinBlocks, List.length_append, List.length_cons, hbs b (by simp)] at hrest ⊢
    omega

/-- Symbol `k` of the blocks stands at POSS of `k` (R74). -/
theorem getElem?_joinBlocks_symbol {k : Nat} (hk : k < 4 * bs.length) : (joinBlocks bs)[posS k]? = bs.flatten[k]? := by
  induction bs using joinBlocks.induct generalizing k with
  | case1 => simp at hk
  | case2 b =>
    have hpos : posS k = k := by simp only [posS, List.length_singleton] at hk ⊢; omega
    simp [joinBlocks, hpos]
  | case3 b c bs ih =>
    have hb : b.length = 4 := hbs b (by simp)
    rw [joinBlocks, List.flatten_cons]
    by_cases hfirst : k < 4
    · have hpos : posS k = k := by simp only [posS]; omega
      rw [hpos, List.getElem?_append_left (by omega), List.getElem?_append_left (by omega)]
    · obtain ⟨n, rfl⟩ : ∃ n, k = n + 4 := ⟨k - 4, by omega⟩
      have hpos : posS (n + 4) = posS n + 1 + 4 := by simp only [posS]; omega
      simp only [List.length_cons] at hk
      rw [hpos, ← hb, List.getElem?_append_right (by omega), List.getElem?_append_right (by omega), Nat.add_sub_cancel,
        Nat.add_sub_cancel, List.getElem?_cons_succ]
      exact ih (fun x hx => hbs x (List.mem_cons_of_mem _ hx)) (by simp only [List.length_cons]; omega)

/-- A separator stands before each block but the first (R74). -/
theorem getElem?_joinBlocks_sep {k : Nat} (hk : k < 4 * bs.length) (h0 : 0 < k) (h4 : k % 4 = 0) :
    (joinBlocks bs)[posS k - 1]? = some sep := by
  induction bs using joinBlocks.induct generalizing k with
  | case1 => simp at hk
  | case2 b => simp only [List.length_singleton] at hk; omega
  | case3 b c bs ih =>
    have hb : b.length = 4 := hbs b (by simp)
    rw [joinBlocks]
    by_cases hsecond : k = 4
    · rw [hsecond, show posS 4 - 1 = b.length from hb.symm]
      simp
    · obtain ⟨n, rfl⟩ : ∃ n, k = n + 4 := ⟨k - 4, by omega⟩
      have hpos : posS (n + 4) - 1 = posS n - 1 + 1 + 4 := by simp only [posS]; omega
      simp only [List.length_cons] at hk
      rw [hpos, ← hb, List.getElem?_append_right (by omega), Nat.add_sub_cancel, List.getElem?_cons_succ]
      exact ih (fun x hx => hbs x (List.mem_cons_of_mem _ hx)) (by simp only [List.length_cons]; omega) (by omega) (by omega)

end

/-! ## The symbols of a stream of values -/

/-- The first `n` symbols of the values `V`. -/
def symbolsOf (V : Nat → SymVal) (n : Nat) : List Byte := (List.range n).map fun k => val2sym (V k)

/-- The first `n` blocks of the symbols of the values `V` (R54, R55). -/
def blocksOf (V : Nat → SymVal) (n : Nat) : List (List Byte) :=
  (List.range n).map fun b => (List.range 4).map fun u => val2sym (V (4 * b + u))

variable (V : Nat → SymVal)

@[simp] theorem length_symbolsOf (n : Nat) : (symbolsOf V n).length = n := by simp [symbolsOf]

@[simp] theorem length_blocksOf (n : Nat) : (blocksOf V n).length = n := by simp [blocksOf]

theorem getElem?_symbolsOf {n k : Nat} (hk : k < n) : (symbolsOf V n)[k]? = some (val2sym (V k)) := by
  simp [symbolsOf, hk]

theorem symbolsOf_valid (n : Nat) : (symbolsOf V n).all valid = true := by
  simp [symbolsOf]

theorem isBlock_of_mem_blocksOf {n : Nat} {b : List Byte} (hb : b ∈ blocksOf V n) : isBlock b = true := by
  obtain ⟨k, -, rfl⟩ := List.mem_map.mp hb
  exact isBlock_iff_length.mpr ⟨by simp, by simp⟩

theorem length_of_mem_blocksOf {n : Nat} {b : List Byte} (hb : b ∈ blocksOf V n) : b.length = 4 :=
  (isBlock_iff_length.mp (isBlock_of_mem_blocksOf V hb)).1

/-- The blocks hold the symbols in their order. -/
theorem flatten_blocksOf (n : Nat) : (blocksOf V n).flatten = symbolsOf V (4 * n) := by
  induction n with
  | zero => rfl
  | succ n ih =>
    have hsplit : blocksOf V (n + 1) = blocksOf V n ++ [(List.range 4).map fun u => val2sym (V (4 * n + u))] := by
      simp [blocksOf, List.range_succ]
    rw [hsplit, List.flatten_append, ih, List.flatten_singleton, symbolsOf, symbolsOf, Nat.mul_succ, List.range_add, List.map_append,
      List.map_map]
    rfl

/-- The values of the symbols are the values. -/
theorem sym2val_getD_symbolsOf {n k : Nat} (hk : k < n) : sym2val ((symbolsOf V n).getD k 0) = V k := by
  rw [List.getD_eq_getElem?_getD, getElem?_symbolsOf V hk, Option.getD_some, sym2val_val2sym]

/-! ## The two texts of a payload -/

/-- The value of symbol `k` of a payload (R65). -/
def payloadSym (payload : List Byte) : Nat → SymVal := packSym (fun j => payload.getD j 0) payload.length

/-- The normal form of a payload (R54, R76). -/
def normalText (payload : List Byte) : List Byte :=
  padEnc (padCalc payload.length) :: sep :: joinBlocks (blocksOf (payloadSym payload) (2 * ((payload.length + 4) / 5)))

/-- The strict form of a payload of whole groups (R55, R77). -/
def strictText (payload : List Byte) : List Byte := joinBlocks (blocksOf (payloadSym payload) (2 * (payload.length / 5)))

/-- The symbols carry the payload's bits, then zeros (R34, R65). -/
theorem symbolBit_payloadSym (payload : List Byte) (n : Nat) :
    symbolBit (payloadSym payload) n = (decide (n / 8 < payload.length) && streamBit (fun j => payload.getD j 0) n) := by
  rw [symbolBit, payloadSym, packSym_bit _ _ _ _ (Nat.mod_lt _ (by decide)), Nat.div_add_mod]

/-- PACKSYM looks at the payload only (R65). -/
theorem packSym_congr {B B' : Nat → Byte} {L : Nat} (h : ∀ j < L, B j = B' j) (k : Nat) : packSym B L k = packSym B' L k := by
  refine packSym_eq_of_bits fun u hu => ?_
  rw [packSym_bit B' L k u hu]
  by_cases hin : (5 * k + u) / 8 < L
  · rw [streamBit, streamBit, h _ hin]
  · rw [decide_eq_false hin, Bool.false_and, Bool.false_and]

/-- The symbols ENC and ENCS pack are the payload's. -/
theorem packSym_of_holds {s : State} {payload : List Byte} (h : s.holds payload) (k : Nat) :
    packSym (s.payload k) s.ilen k = payloadSym payload k := by
  obtain ⟨-, hlen, -⟩ := id h
  rw [hlen, payloadSym]
  refine packSym_congr (fun j hj => ?_) k
  rw [State.payload, reads_of_holds h _ j hj, List.getElem_eq_getD]

section
variable (payload : List Byte)

theorem length_normalText : (normalText payload).length = needN (8 * ((payload.length + 4) / 5)) := by
  rw [needN_groups, normalText, List.length_cons, List.length_cons, length_joinBlocks (fun _ => length_of_mem_blocksOf _),
    length_blocksOf]
  split <;> omega

theorem length_strictText : (strictText payload).length = needS (8 * (payload.length / 5)) := by
  rw [needS_groups, strictText, length_joinBlocks (fun _ => length_of_mem_blocksOf _), length_blocksOf]
  split <;> omega

/-- A padding digit is a symbol (R63). -/
theorem valid_padEnc (p : Nat) : valid (padEnc p) = true := valid_val2sym _

theorem strip_normalText : strip (normalText payload) =
    padEnc (padCalc payload.length) :: symbolsOf (payloadSym payload) (8 * ((payload.length + 4) / 5)) := by
  rw [normalText, strip_cons_of_not_sep (isSep_of_valid (valid_padEnc _)), strip_sep_cons,
    strip_joinBlocks (fun _ => isBlock_of_mem_blocksOf _), flatten_blocksOf, ← Nat.mul_assoc]

theorem strip_strictText : strip (strictText payload) = symbolsOf (payloadSym payload) (8 * (payload.length / 5)) := by
  rw [strictText, strip_joinBlocks (fun _ => isBlock_of_mem_blocksOf _), flatten_blocksOf, ← Nat.mul_assoc]

variable {payload} {k : Nat}

theorem getElem?_strictText_symbol (hk : k < 8 * (payload.length / 5)) :
    (strictText payload)[posS k]? = some (val2sym (payloadSym payload k)) := by
  rw [strictText, getElem?_joinBlocks_symbol (fun _ => length_of_mem_blocksOf _) (by rw [length_blocksOf]; omega), flatten_blocksOf,
    getElem?_symbolsOf _ (by omega)]

theorem getElem?_strictText_sep (hk : k < 8 * (payload.length / 5)) (h0 : 0 < k) (h4 : k % 4 = 0) :
    (strictText payload)[posS k - 1]? = some sep :=
  getElem?_joinBlocks_sep (fun _ => length_of_mem_blocksOf _) (by rw [length_blocksOf]; omega) h0 h4

theorem getElem?_normalText_symbol (hk : k < 8 * ((payload.length + 4) / 5)) :
    (normalText payload)[posN k]? = some (val2sym (payloadSym payload k)) := by
  rw [normalText, show posN k = posS k + 1 + 1 by simp only [posN, posS]; omega, List.getElem?_cons_succ, List.getElem?_cons_succ,
    getElem?_joinBlocks_symbol (fun _ => length_of_mem_blocksOf _) (by rw [length_blocksOf]; omega), flatten_blocksOf,
    getElem?_symbolsOf _ (by omega)]

theorem getElem?_normalText_sep (hk : k < 8 * ((payload.length + 4) / 5)) (h0 : 0 < k) (h4 : k % 4 = 0) :
    (normalText payload)[posN k - 1]? = some sep := by
  rw [normalText, show posN k - 1 = posS k - 1 + 1 + 1 by simp only [posN, posS]; omega, List.getElem?_cons_succ,
    List.getElem?_cons_succ]
  exact getElem?_joinBlocks_sep (fun _ => length_of_mem_blocksOf _) (by rw [length_blocksOf]; omega) h0 h4

end

/-! ## What ENC and ENCS write -/

section
variable {s t : State} {payload : List Byte}

/-- ENC writes the normal form of its payload (R76). -/
theorem lookup_encText (h : s.holds payload) (i : Nat) : s.encText.lookup i = (normalText payload)[i]? := by
  obtain ⟨-, hlen, -⟩ := id h
  by_cases hi : i < needN (8 * ((payload.length + 4) / 5))
  · rcases normal_cell hi with rfl | rfl | ⟨k, hk, rfl⟩ | ⟨k, hk, h0, h4, rfl⟩
    · rw [encText_digit, hlen]
      rfl
    · rw [encText_sep_one]
      rfl
    · rw [encText_symbol s (by rwa [nsym_padded, hlen]), packSym_of_holds h, getElem?_normalText_symbol hk]
    · rw [encText_sep s (by rwa [nsym_padded, hlen]) h0 h4, getElem?_normalText_sep hk h0 h4]
  · rw [encText_beyond s (by rw [nsym_padded, hlen]; omega), List.getElem?_eq_none (by rw [length_normalText]; omega)]

/-- ENCS writes the strict form of its payload (R77). -/
theorem lookup_encsText (h : s.holds payload) (h5 : s.ilen % 5 = 0) (i : Nat) : s.encsText.lookup i = (strictText payload)[i]? := by
  obtain ⟨-, hlen, -⟩ := id h
  by_cases hi : i < needS (8 * (payload.length / 5))
  · rcases strict_cell hi with ⟨k, hk, rfl⟩ | ⟨k, hk, h0, h4, rfl⟩
    · rw [encsText_symbol s (by rwa [nsym_whole h5, hlen]), packSym_of_holds h, getElem?_strictText_symbol hk]
    · rw [encsText_sep s (by rwa [nsym_whole h5, hlen]) h0 h4, getElem?_strictText_sep hk h0 h4]
  · rw [encsText_beyond s h5 (by rw [nsym_whole h5, hlen]; omega), List.getElem?_eq_none (by rw [length_strictText]; omega)]

end

end Sys2Proof.Machine

/-! ENC and ENCS followed by the decoders and the predicates: round trips and self-validity (R78, R79, R83). -/

namespace Sys2Proof.Machine

/-! ## How ENC and ENCS end -/

/-- The three ends of ENC (R76, R98). -/
theorem exec_enc_cases (s : State) :
    exec .enc s = .next (s.raise .nil) ∨ exec .enc s = .next ((s.setPad (padCalc s.ilen)).raise .cap) ∨
      (s.inValid = true ∧ needN (8 * ((s.ilen + 4) / 5)) ≤ s.obufMax ∧
        exec .enc s = .next ((s.setPad (padCalc s.ilen)).deliver s.encText (needN (8 * ((s.ilen + 4) / 5))))) := by
  cases hin : s.inValid with
  | false => exact .inl (exec_enc_of_absent hin)
  | true =>
    rcases Nat.lt_or_ge s.obufMax (needN (8 * ((s.ilen + 4) / 5))) with hlong | hfits
    · exact .inr (.inl (exec_enc_of_long hin hlong))
    · exact .inr (.inr ⟨rfl, hfits, exec_enc_of_fits hin hfits⟩)

/-- The ends of ENCS (R77, R98). -/
theorem exec_encs_cases (s : State) :
    (∃ e ∈ [ErrCode.nil, .len, .cap], exec .encs s = .next (s.raise e)) ∨
      (s.inValid = true ∧ s.ilen % 5 = 0 ∧ needS (8 * (s.ilen / 5)) ≤ s.obufMax ∧
        exec .encs s = .next (s.deliver s.encsText (needS (8 * (s.ilen / 5))))) := by
  cases hin : s.inValid with
  | false => exact .inl ⟨_, by simp, exec_encs_of_absent hin⟩
  | true =>
    by_cases h5 : s.ilen % 5 = 0
    · rcases Nat.lt_or_ge s.obufMax (needS (8 * (s.ilen / 5))) with hlong | hfits
      · exact .inl ⟨_, by simp, exec_encs_of_long hin h5 hlong⟩
      · exact .inr ⟨rfl, h5, hfits, exec_encs_of_fits hin h5 hfits⟩
    · exact .inl ⟨_, by simp, exec_encs_of_ragged hin h5⟩

section
variable {s t : State} {payload text : List Byte}

/-- ENC without a fault: the output is the normal form of the payload (R76). -/
theorem exec_enc_ok (h : s.holds payload) (hexec : exec .enc s = .next t) (hok : t.err = .ok) :
    (normalText payload).length ≤ s.obufMax ∧ t.olen = (normalText payload).length ∧
      (∀ i, t.obuf.lookup i = (normalText payload)[i]?) ∧ t.pad = BitVec.ofNat 3 (padCalc payload.length) := by
  obtain ⟨-, hlen, -⟩ := id h
  rcases exec_enc_cases s with hnil | hcap | ⟨-, hfits, hdeliver⟩
  · cases hnil.symm.trans hexec
    cases hok
  · cases hcap.symm.trans hexec
    cases hok
  · cases hdeliver.symm.trans hexec
    rw [length_normalText, ← hlen]
    exact ⟨hfits, rfl, lookup_encText h, rfl⟩

/-- ENCS without a fault: the output is the strict form of the payload (R77). -/
theorem exec_encs_ok (h : s.holds payload) (hexec : exec .encs s = .next t) (hok : t.err = .ok) :
    payload.length % 5 = 0 ∧ t.olen = (strictText payload).length ∧ ∀ i, t.obuf.lookup i = (strictText payload)[i]? := by
  obtain ⟨-, hlen, -⟩ := id h
  rcases exec_encs_cases s with ⟨e, he, hraise⟩ | ⟨-, h5, -, hdeliver⟩
  · cases hraise.symm.trans hexec
    cases hok
    simp at he
  · cases hdeliver.symm.trans hexec
    rw [length_strictText, ← hlen]
    exact ⟨h5, rfl, lookup_encsText h h5⟩

/-- An output is one byte sequence (R22). -/
theorem State.eq_of_delivers {bytes : List Byte} (hdeliver : t.delivers text) (holen : t.olen = bytes.length)
    (hcells : ∀ i < t.olen, t.obuf.lookup i = bytes[i]?) : text = bytes := by
  obtain ⟨hlen, htext⟩ := hdeliver
  refine List.ext_getElem? fun i => ?_
  by_cases hi : i < text.length
  · rw [← htext i hi, hcells i (by omega)]
  · rw [List.getElem?_eq_none (by omega), List.getElem?_eq_none (by omega)]

theorem eq_normalText (h : s.holds payload) (hexec : exec .enc s = .next t) (hok : t.err = .ok) (hdeliver : t.delivers text) :
    text = normalText payload := by
  obtain ⟨-, holen, hcells, -⟩ := exec_enc_ok h hexec hok
  exact State.eq_of_delivers hdeliver holen fun i _ => hcells i

theorem eq_strictText (h : s.holds payload) (hexec : exec .encs s = .next t) (hok : t.err = .ok) (hdeliver : t.delivers text) :
    payload.length % 5 = 0 ∧ text = strictText payload := by
  obtain ⟨h5, holen, hcells⟩ := exec_encs_ok h hexec hok
  exact ⟨h5, State.eq_of_delivers hdeliver holen fun i _ => hcells i⟩

end

/-! ## Self-validity -/

/-- The last eight symbols carry the last bits of the symbols' stream (R34, R72). -/
theorem symbolBit_lastEight (rest : List Byte) (n : Nat) :
    symbolBit (lastEight rest) n = symbolBit (fun k => sym2val (rest.getD k 0)) (5 * (rest.length - 8) + n) := by
  rw [symbolBit, symbolBit, show (5 * (rest.length - 8) + n) / 5 = rest.length - 8 + n / 5 by omega, Nat.mul_add_mod]
  rfl

/-- The padding of whole groups: their number, and that the payload ends `8p` bits before them (R62). -/
theorem padCalc_groups (L : Nat) : L + padCalc L = 5 * ((L + 4) / 5) := by
  unfold padCalc
  omega

section
variable (payload : List Byte)

/-- The symbols of a payload carry its bits, then zeros: so the ending its padding asks for is there (R72, R79). -/
theorem endChk_symbolsOf (hne : payload ≠ []) : endChk (padCalc payload.length)
    (lastEight (symbolsOf (payloadSym payload) (8 * ((payload.length + 4) / 5)))) = true := by
  have hpos : 0 < payload.length := List.length_pos_iff.mpr hne
  have hpad := padCalc_groups payload.length
  by_cases hzero : padCalc payload.length = 0
  · rw [hzero, endChk_zero]
  · refine (endingCheckIsZeroPaddingBits _ _ (by omega) (padCalc_le _)).mpr fun n hn h40 => ?_
    rw [symbolBit_lastEight, length_symbolsOf, symbolBit, sym2val_getD_symbolsOf _ (by omega),
      ← symbolBit, symbolBit_payloadSym, decide_eq_false (by omega), Bool.false_and]

/-- What ENC makes is the grammar `normal` (R54, R79). -/
theorem normalForm_normalText : NormalForm (normalText payload) := by
  have hne : blocksOf (payloadSym payload) (2 * ((payload.length + 4) / 5)) = [] ↔ payload = [] := by
    rw [← List.length_eq_zero_iff, length_blocksOf, ← List.length_eq_zero_iff]
    omega
  refine ⟨_, _, _, padDec_padEnc (padCalc_le _), fun _ => isBlock_of_mem_blocksOf _, by rw [length_blocksOf]; omega, ?_, ?_, rfl⟩
  · intro hnil
    rw [hne.mp hnil]
    rfl
  · intro hsome
    rw [flatten_blocksOf, ← Nat.mul_assoc]
    exact endChk_symbolsOf payload (mt hne.mpr hsome)

/-- What ENCS makes is the grammar `strict` (R55, R79). -/
theorem strictForm_strictText : StrictForm (strictText payload) := ⟨_, fun _ => isBlock_of_mem_blocksOf _, rfl⟩

/-- The padding digit of the normal form is read back (R53, R63, R64). -/
theorem padDec_normalText : (strip (normalText payload)).head?.bind padDec = some (padCalc payload.length) := by
  rw [strip_normalText]
  exact padDec_padEnc (padCalc_le _)

end

/-- Settles O24: ENC's output is the normal form (`eq_normalText`), which meets the two grammars. -/
theorem encProducesWellFormedText : Obligations.EncProducesWellFormedText := by
  intro s t u payload text _ hs hexec hok hdeliver hu hutext
  obtain ⟨-, -, -, hpad⟩ := exec_enc_ok hs hexec hok
  obtain rfl := eq_normalText hs hexec hok hdeliver
  have hnormal := normalForm_normalText payload
  obtain ⟨v, hchkw, ⟨-, -, -, -, -, -, hvpad, -⟩, hresult⟩ := (chkwAcceptsExactlyTheNormalForm u hu).2 _ hutext
  obtain ⟨w, hchka, -, haccept⟩ := (chkaAcceptsExactlyTheAcceptable u hu).2 _ hutext
  refine ⟨⟨v, hchkw, hresult.mpr hnormal, ?_⟩, w, hchka, haccept.mpr (normalForm_iff.mp hnormal).1⟩
  rw [padDec_normalText] at hvpad
  rw [hpad]
  exact BitVec.eq_of_toNat_eq (hvpad.trans (toNat_pad_of_le_four (padCalc_le _)).symm)

/-- Settles O25: ENCS's output is the strict form (`eq_strictText`), which CHKS accepts. -/
theorem encsProducesStrictText : Obligations.EncsProducesStrictText := by
  intro s t u payload text _ hs hexec hok hdeliver hu hutext
  obtain ⟨-, rfl⟩ := eq_strictText hs hexec hok hdeliver
  obtain ⟨v, hchks, -, hresult⟩ := (chksAcceptsExactlyTheStrictForm u hu).2 _ hutext
  exact ⟨v, hchks, hresult.mpr (strictForm_strictText payload)⟩

/-! ## DEC and DECS on a text of symbols -/

/-- The first `n` cells of `out` hold the stream of the values `V` (R34). -/
def Streams (out : Memory) (n : Nat) (V : Nat → SymVal) : Prop :=
  ∀ j < n, ∃ b, out.lookup j = some b ∧ ∀ t < 8, b.getLsbD (7 - t) = symbolBit V (8 * j + t)

/-- Cells that hold the stream of the values hold the byte sequence whose stream it is. -/
theorem Streams.lookup {out : Memory} {bytes : List Byte} {V : Nat → SymVal} (h : Streams out bytes.length V)
    (hbits : ∀ n < 8 * bytes.length, symbolBit V n = streamBit (fun j => bytes.getD j 0) n) :
    ∀ j < bytes.length, out.lookup j = bytes[j]? := by
  intro j hj
  obtain ⟨b, hb, hstream⟩ := h j hj
  have hbyte : b = bytes.getD j 0 := byte_eq_of_bits fun t ht => by rw [hstream t ht, hbits _ (by omega), streamBit_byte _ _ ht]
  rw [hb, hbyte, List.getElem?_eq_getElem hj, List.getElem_eq_getD]

/-- A byte sequence that cells with the stream of the values hold has that stream. -/
theorem Streams.bits {out : Memory} {bytes : List Byte} {V : Nat → SymVal} (h : Streams out bytes.length V)
    (hcells : ∀ j < bytes.length, out.lookup j = bytes[j]?) :
    ∀ n < 8 * bytes.length, streamBit (fun j => bytes.getD j 0) n = symbolBit V n := by
  intro n hn
  obtain ⟨b, hb, hstream⟩ := h (n / 8) (by omega)
  rw [hcells _ (by omega), List.getElem?_eq_getElem (by omega)] at hb
  obtain rfl := Option.some.inj hb
  have hbit := hstream (n % 8) (Nat.mod_lt _ (by decide))
  rwa [Nat.div_add_mod, List.getElem_eq_getD 0] at hbit

/-- The end of DEC and DECS on symbols: their bytes but the last `cut` (R81, R82). -/
theorem State.decodeData_of_map {s : State} {xs : List Nat} {chars : List Byte} (cut : Nat)
    (hchars : xs.map (s.readIbuf .data) = chars) (hvalid : chars.all valid = true) :
    ∃ out, s.decodeData xs cut = s.deliver out (nbytes chars.length - cut) ∧
      Streams out (nbytes chars.length - cut) (fun k => sym2val (chars.getD k 0)) := by
  subst hchars
  obtain ⟨out, hdeliver, hbits, -⟩ := State.decodeData_of_symbols cut (s := s) (xs := xs) (by simpa using hvalid)
  rw [List.length_map]
  refine ⟨out, hdeliver, fun j hj => ?_⟩
  obtain ⟨b, hb, hstream⟩ := hbits j hj
  refine ⟨b, hb, fun t ht => (hstream t ht).trans ?_⟩
  have hk : (8 * j + t) / 5 < xs.length := by unfold nbytes at hj; omega
  simp only [symbolBit, List.getD_eq_getElem?_getD, List.getElem?_map, List.getElem?_eq_getElem hk, Option.map_some, Option.getD_some]

section
variable {s : State} {text : List Byte} (h : s.holds text)
include h

/-- The non-separators of the input, whichever site reads them (R80). -/
theorem map_nonsep_of_holds (site : Config.ReadSite) :
    (nonsep (s.readIbuf .scan) s.ilen).map (s.readIbuf site) = strip text := by
  obtain ⟨-, hlen, -⟩ := id h
  rw [hlen]
  exact map_nonsep_scan (reads_of_holds h) site

/-- The index of the padding digit and those of the data, whichever site reads them (R81). -/
theorem exists_nonsep_of_holds {d : Byte} {rest : List Byte} (hstrip : strip text = d :: rest) :
    ∃ x xs, nonsep (s.readIbuf .scan) s.ilen = x :: xs ∧ ∀ site, s.readIbuf site x = d ∧ xs.map (s.readIbuf site) = rest := by
  obtain ⟨-, hlen, -⟩ := id h
  rw [hlen]
  exact exists_nonsep_of_strip (reads_of_holds h) hstrip

/-- DEC on a text of separators (R81). -/
theorem exec_dec_of_strip_nil (hstrip : strip text = []) : exec .dec s = .next (s.raise .pad) := by
  obtain ⟨hin, -, -⟩ := id h
  have hmap := map_nonsep_of_holds h .scan
  rw [hstrip, List.map_eq_nil_iff] at hmap
  exact exec_dec_of_empty hin hmap

section
variable {d : Byte} {rest : List Byte} (hstrip : strip text = d :: rest)
include hstrip

/-- DEC on a text whose first character is no padding digit (R81). -/
theorem exec_dec_of_strip_not_digit (hdigit : padDec d = none) : exec .dec s = .next (s.raise .pad) := by
  obtain ⟨hin, -, -⟩ := id h
  obtain ⟨x, xs, hscan, hreads⟩ := exists_nonsep_of_holds h hstrip
  obtain ⟨hx, -⟩ := hreads .digit
  exact exec_dec_of_not_digit hin hscan (hx ▸ hdigit)

variable {p : Nat} (hdigit : padDec d = some p)
include hdigit

/-- DEC on a text with no whole groups, or with padding and no data (R81, R98). -/
theorem exec_dec_of_strip_bad_length (hbad : rest.length % 8 ≠ 0 ∨ rest.length = 0 ∧ p > 0) :
    exec .dec s = .next ((s.setPad p).raise .len) := by
  obtain ⟨hin, -, -⟩ := id h
  obtain ⟨x, xs, hscan, hreads⟩ := exists_nonsep_of_holds h hstrip
  obtain ⟨hx, hxs⟩ := hreads .digit
  exact exec_dec_of_bad_length hin hscan (hx ▸ hdigit) (by rwa [← hxs, List.length_map] at hbad)

/-- DEC on a text whose lengths are good decodes the data after the padding digit (R81). -/
theorem exec_dec_of_strip_good_length (hgood : ¬ (rest.length % 8 ≠ 0 ∨ rest.length = 0 ∧ p > 0)) :
    ∃ x xs, nonsep (s.readIbuf .scan) s.ilen = x :: xs ∧ xs.map (s.readIbuf .data) = rest ∧
      exec .dec s = .next ((s.setPad p).decodeData xs p) := by
  obtain ⟨hin, -, -⟩ := id h
  obtain ⟨x, xs, hscan, hreads⟩ := exists_nonsep_of_holds h hstrip
  obtain ⟨hx, -⟩ := hreads .digit
  obtain ⟨-, hxs⟩ := hreads .data
  rw [← hxs, List.length_map] at hgood
  exact ⟨x, xs, hscan, hxs, exec_dec_of_good_length hin hscan (hx ▸ hdigit) (by omega) (by omega)⟩

/-- DEC on a padding digit and whole groups of symbols delivers their bytes but the padding (R81). -/
theorem exec_dec_of_symbols (hdata : AcceptableData p rest) :
    ∃ out, exec .dec s = .next ((s.setPad p).deliver out (nbytes rest.length - p)) ∧
      Streams out (nbytes rest.length - p) (fun k => sym2val (rest.getD k 0)) := by
  obtain ⟨hvalid, hgroups, hnone, -⟩ := hdata
  have hgood : ¬ (rest.length % 8 ≠ 0 ∨ rest.length = 0 ∧ p > 0) := by
    rw [List.length_eq_zero_iff]
    rintro (hragged | ⟨hnil, hp⟩)
    · exact hragged hgroups
    · rw [hnone hnil] at hp
      cases hp
  obtain ⟨x, xs, -, hxs, hexec⟩ := exec_dec_of_strip_good_length h hstrip hdigit hgood
  obtain ⟨out, hdeliver, hout⟩ := State.decodeData_of_map (s := s.setPad p) p hxs hvalid
  exact ⟨out, hexec.trans (congrArg _ hdeliver), hout⟩

end

/-- DECS on blocks of symbols delivers their bytes (R82). -/
theorem exec_decs_of_symbols (hvalid : (strip text).all valid = true) (hblocks : (strip text).length % 4 = 0) :
    ∃ out, exec .decs s = .next (s.deliver out (nbytes (strip text).length)) ∧
      Streams out (nbytes (strip text).length) (fun k => sym2val ((strip text).getD k 0)) := by
  obtain ⟨hin, -, -⟩ := id h
  have hmap := map_nonsep_of_holds h .data
  obtain ⟨out, hdeliver, hout⟩ := State.decodeData_of_map 0 hmap hvalid
  exact ⟨out, by rw [exec_decs_of_whole hin (by rwa [← List.length_map, hmap]), hdeliver, Nat.sub_zero], hout⟩

end

/-! ## Round trips -/

/-- The values of the symbols of a payload carry its bits (R34, R83). -/
theorem symbolBit_symbolsOf_payloadSym (payload : List Byte) {N n : Nat} (hN : n < 5 * N) (hn : n < 8 * payload.length) :
    symbolBit (fun k => sym2val ((symbolsOf (payloadSym payload) N).getD k 0)) n = streamBit (fun j => payload.getD j 0) n := by
  rw [symbolBit, sym2val_getD_symbolsOf _ (by omega), ← symbolBit, symbolBit_payloadSym, decide_eq_true (by omega), Bool.true_and]

/-- Whole groups of symbols less the padding are the payload's length (R62, R70). -/
theorem nbytes_sub_padCalc (L : Nat) : nbytes (8 * ((L + 4) / 5)) - padCalc L = L := by
  have hpad := padCalc_groups L
  rw [nbytes_groups]
  omega

/-- The data characters of the normal form are acceptable (R54, R79). -/
theorem acceptableData_normalText (payload : List Byte) :
    AcceptableData (padCalc payload.length) (symbolsOf (payloadSym payload) (8 * ((payload.length + 4) / 5))) :=
  (acceptable_iff_of_digit (strip_normalText payload) (padDec_padEnc (padCalc_le _))).mp
    (normalForm_iff.mp (normalForm_normalText payload)).1

/-- Settles O22: DEC reads the symbols of the normal form, whose stream is the payload's, and cuts its padding off. -/
theorem decOfEncIsThePayload : Obligations.DecOfEncIsThePayload := by
  intro s t u payload text _ hs hexec hok hdeliver hu hutext
  obtain ⟨-, -, -, hpad⟩ := exec_enc_ok hs hexec hok
  obtain rfl := eq_normalText hs hexec hok hdeliver
  obtain ⟨out, hdec, hout⟩ := exec_dec_of_symbols hutext (strip_normalText payload) (padDec_padEnc (padCalc_le _))
    (acceptableData_normalText payload)
  rw [length_symbolsOf, nbytes_sub_padCalc] at hdec hout
  obtain ⟨-, -, -, herr, -⟩ := hu
  refine ⟨_, hdec, herr, ⟨rfl, hout.lookup fun n hn => ?_⟩, hpad.symm⟩
  exact symbolBit_symbolsOf_payloadSym payload (by omega) hn

/-- Settles O23: DECS reads the symbols of the strict form, whose stream is the payload's. -/
theorem decsOfEncsIsThePayload : Obligations.DecsOfEncsIsThePayload := by
  intro s t u payload text _ hs hexec hok hdeliver hu hutext
  obtain ⟨h5, rfl⟩ := eq_strictText hs hexec hok hdeliver
  have hstrip := strip_strictText payload
  obtain ⟨out, hdecs, hout⟩ := exec_decs_of_symbols hutext (by rw [hstrip, symbolsOf_valid])
    (by rw [hstrip, length_symbolsOf]; omega)
  have hlen : nbytes (8 * (payload.length / 5)) = payload.length := by rw [nbytes_groups]; omega
  rw [hstrip, length_symbolsOf, hlen] at hdecs hout
  obtain ⟨-, -, -, herr, -⟩ := hu
  refine ⟨_, hdecs, herr, rfl, hout.lookup fun n hn => ?_⟩
  exact symbolBit_symbolsOf_payloadSym payload (by omega) hn

/-! ## ENC through ENCS -/

/-- Zeros appended to the payload do not change its symbols (R65, R78). -/
theorem payloadSym_append_zeros (payload : List Byte) (p : Nat) :
    payloadSym (payload ++ List.replicate p 0) = payloadSym payload := by
  have hbyte (j : Nat) : (payload ++ List.replicate p 0).getD j 0 = payload.getD j 0 := by
    simp only [List.getD_eq_getElem?_getD, List.getElem?_append]
    split
    · rfl
    · rw [List.getElem?_eq_none (l := payload) (by omega), List.getElem?_replicate]
      split <;> rfl
  funext k
  refine packSym_eq_of_bits fun u hu => ?_
  simp only [hbyte]
  rw [payloadSym, packSym_bit _ _ _ _ hu]
  by_cases hin : (5 * k + u) / 8 < payload.length
  · rw [decide_eq_true hin, decide_eq_true (by rw [List.length_append]; omega)]
  · have hzero : streamBit (fun j => payload.getD j 0) (5 * k + u) = false := by
      rw [streamBit, List.getD_eq_default _ _ (by omega)]
      exact BitVec.getLsbD_zero
    rw [hzero, Bool.and_false, Bool.and_false]

/-- The normal form is the padding digit, a separator and the strict form of the padded payload (R78). -/
theorem normalText_eq (payload : List Byte) : normalText payload =
    padEnc (padCalc payload.length) :: sep :: strictText (payload ++ List.replicate (padCalc payload.length) 0) := by
  have hgroups : (payload.length + padCalc payload.length) / 5 = (payload.length + 4) / 5 := by
    rw [padCalc_groups]
    omega
  rw [normalText, strictText, payloadSym_append_zeros, List.length_append, List.length_replicate, hgroups]

/-- Settles O27: the padded payload has whole groups and its strict form is two cells shorter, so ENCS has no fault; the cells are
those of `normalText_eq`. -/
theorem encIsDigitSeparatorAndEncs : Obligations.EncIsDigitSeparatorAndEncs := by
  intro s u t v payload _ hu hlenw hs hupad hexec hok hencs
  obtain ⟨hfits, holen, hcells, -⟩ := exec_enc_ok hs hexec hok
  obtain ⟨hin, hilen, -⟩ := id hupad
  rw [normalText_eq] at hfits holen hcells
  have h5 : u.ilen % 5 = 0 := by
    rw [hilen, List.length_append, List.length_replicate]
    exact add_padCalc_mod_five _
  have hshort : needS (8 * (u.ilen / 5)) ≤ u.obufMax := by
    rw [hilen, ← length_strictText, State.obufMax_eq, ← hlenw]
    simp only [List.length_cons, State.obufMax_eq] at hfits
    omega
  have hverr : v.err = .ok := by
    cases (exec_encs_of_fits hin h5 hshort).symm.trans hencs
    obtain ⟨-, -, -, herr, -⟩ := hu
    exact herr
  obtain ⟨-, hvolen, hvcells⟩ := exec_encs_ok hupad hencs hverr
  refine ⟨hverr, by rw [holen, hvolen, List.length_cons, List.length_cons]; omega, by rw [hcells]; rfl, by rw [hcells]; rfl,
    fun i _ => ?_⟩
  rw [hcells, hvcells, Nat.add_comm, List.getElem?_cons_succ, List.getElem?_cons_succ]

end Sys2Proof.Machine

/-! What each kind of command can do, and what it leaves alone (R75, R85, R96). In each end `q` is the padding the command notes, if it
notes one. -/

namespace Sys2Proof.Machine

/-! ## Every command -/

/-- The state a command ends from: the started one, with `PAD` noted if the command notes it (R20). -/
theorem exec_ends_in {i : Instr} {s t : State} (hexec : exec i s = .next t) :
    ∃ q : Option Nat, (∀ p, q = some p → p ≤ 4) ∧ EndsIn s (s.notePad q) t := by
  obtain ⟨s', t', ht', hs', hends⟩ := exec_ends i s
  cases ht'.symm.trans hexec
  rcases hs' with rfl | ⟨p, hp, rfl⟩
  · exact ⟨none, nofun, hends⟩
  · exact ⟨some p, fun _ h => Option.some.inj h ▸ hp, hends⟩

section
variable {s s' t : State} (h : EndsIn s s' t)
include h

theorem EndsIn.ended : t.ended := by
  cases h with
  | fault | badChar | answer | output => exact ⟨rfl, rfl⟩

theorem EndsIn.keepsInput : s'.keepsInput t := by
  cases h with
  | fault | badChar | answer | output => exact ⟨rfl, rfl, rfl, rfl, rfl, rfl, rfl⟩

theorem EndsIn.pad_eq : t.pad = s'.pad := by
  cases h with
  | fault | badChar | answer | output => rfl

end

/-- Noting a padding leaves the input alone (R75). -/
theorem State.keepsInput_notePad {s t : State} {q : Option Nat} (h : (s.notePad q).keepsInput t) : s.keepsInput t := by
  simpa [State.keepsInput] using h

/-- A noted padding is 0 to 4 (R20). -/
theorem State.notePad_pad_le (s : State) {q : Option Nat} (hq : ∀ p, q = some p → p ≤ 4) :
    (s.notePad q).pad = s.pad ∨ (s.notePad q).pad.toNat ≤ 4 := by
  cases q with
  | none => exact .inl rfl
  | some p =>
    have hp := hq p rfl
    exact .inr (by rwa [State.notePad_some_pad, toNat_pad_of_le_four hp])

theorem exec_ended {i : Instr} {s t : State} (hexec : exec i s = .next t) : t.ended := by
  obtain ⟨q, -, hends⟩ := exec_ends_in hexec
  exact hends.ended

theorem exec_keepsInput {i : Instr} {s t : State} (hexec : exec i s = .next t) : s.keepsInput t := by
  obtain ⟨q, -, hends⟩ := exec_ends_in hexec
  exact State.keepsInput_notePad hends.keepsInput

/-- Settles O7: each of the ends of `EndsIn` finishes the command and leaves the input, and only a noted padding changes `PAD`. -/
theorem everyCommandEnds : Obligations.EveryCommandEnds := by
  intro i s
  obtain ⟨-, t, hexec, -⟩ := exec_ends i s
  obtain ⟨q, hq, hends⟩ := exec_ends_in hexec
  exact ⟨t, hexec, hends.ended, exec_keepsInput hexec, hends.pad_eq ▸ s.notePad_pad_le hq⟩

/-- Settles O10: an end with an error where there was none is a fault, which raises the code and empties the output. -/
theorem faultLeavesNoOutput : Obligations.FaultLeavesNoOutput := by
  intro i s t hexec hok herr
  have hkeeps := exec_keepsInput hexec
  obtain ⟨q, -, hends⟩ := exec_ends_in hexec
  cases hends with
  | fault e h1 h2 h3 =>
    exact ⟨⟨rfl, rfl⟩, rfl, fun _ => rfl, by simp, hkeeps, fun _ => by simp, fun hchr => absurd hchr h3⟩
  | badChar x c hx =>
    exact ⟨⟨rfl, rfl⟩, rfl, fun _ => rfl, by simp [State.raiseChr], hkeeps, fun hchr => absurd rfl hchr, fun _ => hx⟩
  | answer b => simp [hok] at herr
  | output m n => simp [hok] at herr

/-- Settles O11: no fault of `EndsIn` has code 5, and the other ends leave the code. -/
theorem paddingConsistencyCodeIsNeverWritten : Obligations.PaddingConsistencyCodeIsNeverWritten := by
  intro i s t hexec hcode
  obtain ⟨q, -, hends⟩ := exec_ends_in hexec
  cases hends with
  | fault e h1 h2 h3 => exact absurd hcode h2
  | badChar x c hx => cases hcode
  | answer b => simpa using hcode
  | output m n => simpa using hcode

/-- In a state without output every output byte of a command is fixed (R22). -/
theorem exec_output_fixed {i : Instr} {s t : State} (hexec : exec i s = .next t) (holen : s.olen = 0) :
    ∀ a < t.olen, (t.obuf.lookup a).isSome = true := by
  obtain ⟨q, -, hends⟩ := exec_ends_in hexec
  cases hends with
  | fault e h1 h2 h3 => exact fun a ha => absurd ha (Nat.not_lt_zero a)
  | badChar x c hx => exact fun a ha => absurd ha (Nat.not_lt_zero a)
  | answer b => simp [holen]
  | output m n hn hw hf hb => exact hf

/-- A command has one end. -/
theorem eq_of_exec {i : Instr} {s t u : State} (hexec : exec i s = .next t) (hend : exec i s = .next u) : t = u :=
  Host.Outcome.next.inj (hexec.symm.trans hend)

/-! ## The predicates -/

/-- A predicate only answers, and notes a padding if it parses one (R85). -/
theorem exec_predicate_cases {i : Instr} {s t : State} (hi : i ∈ [Instr.chkw, .chka, .chks]) (hexec : exec i s = .next t) :
    ∃ q b, t = (s.notePad q).answer b ∧ (∀ p, q = some p → p ≤ 4) ∧ (i = .chks → q = none) ∧ (s.inValid = false → b = false) := by
  cases hin : s.inValid with
  | false => exact ⟨none, false, eq_of_exec hexec (exec_predicate_of_absent hi hin), nofun, fun _ => rfl, fun _ => rfl⟩
  | true =>
    simp only [List.mem_cons, List.not_mem_nil, or_false] at hi
    rcases hi with rfl | rfl | rfl <;>
      simp only [exec, execChkw, execChka, execChks, hin, Bool.not_true, Bool.false_eq_true, if_false] at hexec <;> cases hexec
    · exact ⟨_, _, rfl, fun _ => acceptCheck_pad_le, nofun, nofun⟩
    · exact ⟨_, _, rfl, fun _ => acceptCheck_pad_le, nofun, nofun⟩
    · exact ⟨none, _, rfl, nofun, fun _ => rfl, nofun⟩

/-- Settles O20: the predicates have no other end than an answer (`exec_predicate_cases`). -/
theorem predicatesNeverFault : Obligations.PredicatesNeverFault := by
  intro s hs i hi
  obtain ⟨-, t, hexec, -⟩ := exec_ends i s
  obtain ⟨q, b, rfl, hq, -, habsent⟩ := exec_predicate_cases hi hexec
  obtain ⟨hended, herr, holen, -, hepos, hechar, -, hobuf⟩ := State.answered_notePad hs b hq
  exact ⟨_, hexec, ⟨hended, herr, holen, rfl, hepos, hechar, rfl, hobuf⟩, habsent⟩

/-! ## The decoders -/

/-- DEC and DECS after their checks: a bad character, or an output (R81, R82). -/
theorem State.decodeData_cases (s : State) (xs : List Nat) (cut : Nat) :
    (∃ x ∈ xs, ∃ c, s.decodeData xs cut = s.raiseChr x c) ∨ ∃ out, s.decodeData xs cut = s.deliver out (nbytes xs.length - cut) := by
  rcases unpackAll_cases (S := s.readIbuf .data) xs with ⟨W, hunpack, -⟩ | ⟨e, hunpack, he⟩
  · exact .inr ⟨_, by rw [State.decodeData, hunpack]⟩
  · exact .inl ⟨e.1, he, e.2, by rw [State.decodeData, hunpack]⟩

/-- The ends of a decoder: a fault of its checks, a bad character, or an output no longer than the input (R81, R82, R84). -/
theorem exec_decoder_cases {i : Instr} {s t : State} (hi : i ∈ [Instr.dec, .decs]) (hexec : exec i s = .next t) :
    ∃ q, (i = .decs → q = none) ∧
      ((∃ e ∈ [ErrCode.nil, .pad, .len], t = (s.notePad q).raise e) ∨ (∃ x c, t = (s.notePad q).raiseChr x c) ∨
        ∃ out, ∃ n ≤ s.ilen, t = (s.notePad q).deliver out n) := by
  have hshort {n : Nat} (cut : Nat) (hn : n ≤ s.ilen) : nbytes n - cut ≤ s.ilen := by unfold nbytes; omega
  have hscan := length_nonsep_le (S := s.readIbuf .scan) (len := s.ilen)
  simp only [List.mem_cons, List.not_mem_nil, or_false] at hi
  rcases hi with rfl | rfl
  · cases hin : s.inValid with
    | false => exact ⟨none, nofun, .inl ⟨_, by simp, eq_of_exec hexec (exec_dec_of_absent hin)⟩⟩
    | true =>
      cases hchars : nonsep (s.readIbuf .scan) s.ilen with
      | nil => exact ⟨none, nofun, .inl ⟨_, by simp, eq_of_exec hexec (exec_dec_of_empty hin hchars)⟩⟩
      | cons x xs =>
        cases hdigit : padDec (s.readIbuf .digit x) with
        | none => exact ⟨none, nofun, .inl ⟨_, by simp, eq_of_exec hexec (exec_dec_of_not_digit hin hchars hdigit)⟩⟩
        | some p =>
          refine ⟨some p, nofun, ?_⟩
          by_cases hlen : xs.length % 8 ≠ 0 ∨ xs.length = 0 ∧ p > 0
          · exact .inl ⟨_, by simp, eq_of_exec hexec (exec_dec_of_bad_length hin hchars hdigit hlen)⟩
          · obtain rfl := eq_of_exec hexec (exec_dec_of_good_length hin hchars hdigit (by omega) (by omega))
            rw [hchars, List.length_cons] at hscan
            rcases (s.setPad p).decodeData_cases xs p with ⟨y, -, c, hend⟩ | ⟨out, hend⟩
            · exact .inr (.inl ⟨y, c, hend⟩)
            · exact .inr (.inr ⟨out, _, hshort p (by omega), hend⟩)
  · refine ⟨none, fun _ => rfl, ?_⟩
    cases hin : s.inValid with
    | false => exact .inl ⟨_, by simp, eq_of_exec hexec (exec_decs_of_absent hin)⟩
    | true =>
      by_cases hlen : (nonsep (s.readIbuf .scan) s.ilen).length % 4 = 0
      · obtain rfl := eq_of_exec hexec (exec_decs_of_whole hin hlen)
        rcases s.decodeData_cases (nonsep (s.readIbuf .scan) s.ilen) 0 with ⟨y, -, c, hend⟩ | ⟨out, hend⟩
        · exact .inr (.inl ⟨y, c, hend⟩)
        · exact .inr (.inr ⟨out, _, hshort 0 hscan, hend⟩)
      · exact .inl ⟨_, by simp, eq_of_exec hexec (exec_decs_of_ragged hin hlen)⟩

/-- Settles O21: no check of a decoder raises E_CAP, and its output is no longer than its input (`exec_decoder_cases`). -/
theorem decodersNeverRunOutOfRoom : Obligations.DecodersNeverRunOutOfRoom := by
  intro s t hroom hok i hi hexec
  obtain ⟨q, -, ⟨e, he, rfl⟩ | ⟨x, c, rfl⟩ | ⟨out, n, hn, rfl⟩⟩ := exec_decoder_cases hi hexec
  · refine ⟨?_, fun _ => Nat.zero_le _⟩
    rintro rfl
    simp at he
  · exact ⟨by simp, fun _ => Nat.zero_le _⟩
  · exact ⟨by simp [hok], fun _ => by simpa using hn.trans hroom⟩

/-! ## The encoders -/

/-- A cell of the normal form holds a symbol or the separator (R57, R76). -/
theorem encText_symbol_or_sep (s : State) {a : Nat} (ha : a < needN (8 * ((s.ilen + 4) / 5))) :
    ∃ b, s.encText.lookup a = some b ∧ (valid b = true ∨ b = sep) := by
  rcases normal_cell ha with rfl | rfl | ⟨k, hk, rfl⟩ | ⟨k, hk, h0, h4, rfl⟩
  · exact ⟨_, encText_digit s, .inl (valid_padEnc _)⟩
  · exact ⟨_, encText_sep_one s, .inr rfl⟩
  · exact ⟨_, encText_symbol s (by rwa [nsym_padded]), .inl (valid_val2sym _)⟩
  · exact ⟨_, encText_sep s (by rwa [nsym_padded]) h0 h4, .inr rfl⟩

/-- A cell of the strict form holds a symbol or the separator (R57, R77). -/
theorem encsText_symbol_or_sep (s : State) (h5 : s.ilen % 5 = 0) {a : Nat} (ha : a < needS (8 * (s.ilen / 5))) :
    ∃ b, s.encsText.lookup a = some b ∧ (valid b = true ∨ b = sep) := by
  rcases strict_cell ha with ⟨k, hk, rfl⟩ | ⟨k, hk, h0, h4, rfl⟩
  · exact ⟨_, encsText_symbol s (by rwa [nsym_whole h5]), .inl (valid_val2sym _)⟩
  · exact ⟨_, encsText_sep s (by rwa [nsym_whole h5]) h0 h4, .inr rfl⟩

/-- The ends of an encoder: a fault, or an output of symbols and separators (R57, R76, R77). -/
theorem exec_encoder_cases {i : Instr} {s t : State} (hi : i ∈ [Instr.enc, .encs]) (hexec : exec i s = .next t) :
    ∃ q, (i = .encs → q = none) ∧
      ((∃ e ∈ [ErrCode.nil, .len, .cap], t = (s.notePad q).raise e) ∨
        ∃ out n, (∀ a < n, ∃ b, out.lookup a = some b ∧ (valid b = true ∨ b = sep)) ∧ t = (s.notePad q).deliver out n) := by
  simp only [List.mem_cons, List.not_mem_nil, or_false] at hi
  rcases hi with rfl | rfl
  · rcases exec_enc_cases s with hend | hend | ⟨-, -, hend⟩
    · exact ⟨none, nofun, .inl ⟨_, by simp, eq_of_exec hexec hend⟩⟩
    · exact ⟨some _, nofun, .inl ⟨_, by simp, eq_of_exec hexec hend⟩⟩
    · exact ⟨some _, nofun, .inr ⟨_, _, fun a ha => encText_symbol_or_sep s ha, eq_of_exec hexec hend⟩⟩
  · refine ⟨none, fun _ => rfl, ?_⟩
    rcases exec_encs_cases s with ⟨e, he, hend⟩ | ⟨-, h5, -, hend⟩
    · exact .inl ⟨e, he, eq_of_exec hexec hend⟩
    · exact .inr ⟨_, _, fun a ha => encsText_symbol_or_sep s h5 ha, eq_of_exec hexec hend⟩

/-- Settles O26: a fault has no output, and the output of an encoder is of symbols and separators (`exec_encoder_cases`). -/
theorem encodersProduceOnlySymbolsAndSeparators : Obligations.EncodersProduceOnlySymbolsAndSeparators := by
  intro s t i hi hexec
  obtain ⟨q, -, ⟨e, -, rfl⟩ | ⟨out, n, hcells, rfl⟩⟩ := exec_encoder_cases hi hexec
  · exact fun a ha => absurd ha (Nat.not_lt_zero a)
  · exact hcells

/-! ## Frames -/

/-- Settles O8: by the kind of the command, each with its own ends; the padding is noted by the four that parse or compute one. -/
theorem commandsKeepWhatTheyDoNotWrite : Obligations.CommandsKeepWhatTheyDoNotWrite := by
  intro i s t hexec
  cases i with
  | rsvd =>
    obtain rfl := eq_of_exec hexec (exec_rsvd s)
    simp
  | enc | encs =>
    obtain ⟨q, hq, ⟨e, -, rfl⟩ | ⟨out, n, -, rfl⟩⟩ := exec_encoder_cases (by decide) hexec
    · simp [hq]
    · simp [hq]
  | dec | decs =>
    obtain ⟨q, hq, ⟨e, -, rfl⟩ | ⟨x, c, rfl⟩ | ⟨out, n, -, rfl⟩⟩ := exec_decoder_cases (by decide) hexec
    · simp [hq]
    · simp [hq]
    · simp [hq]
  | chkw | chka | chks =>
    obtain ⟨q, b, rfl, -, hq, -⟩ := exec_predicate_cases (by decide) hexec
    simp [hq]

end Sys2Proof.Machine

/-! How the predicates and the decoders stand to each other (R80, R83, R89, R90), and that a command depends on its input only
(R75). -/

namespace Sys2Proof.Machine

/-! ## What the predicates answer on a text -/

section
variable {s t : State} {text : List Byte} (hs : s.started) (h : s.holds text)
include hs h

theorem chks_result_iff (hexec : exec .chks s = .next t) : t.result = true ↔ StrictForm text := by
  obtain ⟨t', hexec', -, hresult⟩ := (chksAcceptsExactlyTheStrictForm s hs).2 _ h
  rwa [eq_of_exec hexec hexec']

theorem chkw_result_iff (hexec : exec .chkw s = .next t) : t.result = true ↔ NormalForm text := by
  obtain ⟨t', hexec', -, hresult⟩ := (chkwAcceptsExactlyTheNormalForm s hs).2 _ h
  rwa [eq_of_exec hexec hexec']

theorem chka_result_iff (hexec : exec .chka s = .next t) : t.result = true ↔ Acceptable text := by
  obtain ⟨t', hexec', -, hresult⟩ := (chkaAcceptsExactlyTheAcceptable s hs).2 _ h
  rwa [eq_of_exec hexec hexec']

/-- CHKA leaves the padding of the padding digit (R20, R87). -/
theorem chka_pad {d : Byte} {rest : List Byte} {p : Nat} (hexec : exec .chka s = .next t) (hstrip : strip text = d :: rest)
    (hdigit : padDec d = some p) : t.pad = BitVec.ofNat 3 p := by
  obtain ⟨t', hexec', ⟨-, -, -, -, -, -, hpad, -⟩, -⟩ := (chkaAcceptsExactlyTheAcceptable s hs).2 _ h
  rw [eq_of_exec hexec hexec']
  apply BitVec.eq_of_toNat_eq
  rw [hpad, hstrip, List.head?_cons, Option.bind_some, hdigit, toNat_pad_of_le_four (padDec_le hdigit), Option.getD_some]

end

/-- A strict text is symbols and separators, and its symbols fill blocks (R55). -/
theorem StrictForm.symbols {text : List Byte} (h : StrictForm text) :
    (strip text).all valid = true ∧ (strip text).length % 4 = 0 := by
  obtain ⟨bs, hbs, rfl⟩ := h
  obtain ⟨hvalid, hlength⟩ := flatten_blocks hbs
  rw [strip_joinBlocks hbs]
  exact ⟨hvalid, by omega⟩

/-- Settles O29: the grammar `normal` is within the acceptable, and on acceptable data and on strict texts the decoders meet symbols
only. -/
theorem validTextsDecode : Obligations.ValidTextsDecode := by
  intro s t text hs h
  obtain ⟨-, -, -, herr, -⟩ := id hs
  refine ⟨fun hexec hresult => ?_, fun hexec hresult => ?_, fun hexec hresult => ?_⟩
  · obtain ⟨v, hchka, -, haccept⟩ := (chkaAcceptsExactlyTheAcceptable s hs).2 _ h
    exact ⟨v, hchka, haccept.mpr (normalForm_iff.mp ((chkw_result_iff hs h hexec).mp hresult)).1⟩
  · obtain ⟨d, p, rest, hstrip, hdigit, hdata⟩ := (chka_result_iff hs h hexec).mp hresult
    obtain ⟨out, hdec, -⟩ := exec_dec_of_symbols h hstrip hdigit hdata
    exact ⟨_, hdec, herr, (chka_pad hs h hexec hstrip hdigit).symm⟩
  · obtain ⟨hvalid, hblocks⟩ := ((chks_result_iff hs h hexec).mp hresult).symbols
    obtain ⟨out, hdecs, -⟩ := exec_decs_of_symbols h hvalid hblocks
    exact ⟨_, hdecs, herr⟩

/-- Settles O30: a strict text has a multiple of four symbols, an acceptable one a digit more than a multiple of eight. -/
theorem noTextIsStrictAndAcceptable : Obligations.NoTextIsStrictAndAcceptable := by
  rintro s t v text hs h hchks hchka ⟨hstrict, haccept⟩
  obtain ⟨-, hblocks⟩ := ((chks_result_iff hs h hchks).mp hstrict).symbols
  obtain ⟨d, p, rest, hstrip, -, -, hgroups, -⟩ := (chka_result_iff hs h hchka).mp haccept
  rw [hstrip, List.length_cons] at hblocks
  omega

/-- Settles O32: the grammars without a block, and with at least one. -/
theorem minimumLengths : Obligations.MinimumLengths := by
  have hblock {bs : List (List Byte)} (hbs : ∀ b ∈ bs, isBlock b = true) : (joinBlocks bs).length = 5 * bs.length - 1 :=
    length_joinBlocks fun b hb => (isBlock_iff_length.mp (hbs b hb)).1
  intro s t text hs h
  refine ⟨fun hexec hresult => ?_, fun hexec hresult => ?_, fun hexec hresult => ?_⟩
  · obtain ⟨d, p, rest, hstrip, hdigit, -, hgroups, hnone, -⟩ := (chka_result_iff hs h hexec).mp hresult
    cases rest with
    | nil =>
      rw [hnone rfl] at hdigit
      exact .inl (by rw [hstrip, ← padEnc_of_padDec hdigit]; rfl)
    | cons c rest =>
      simp only [hstrip, List.length_cons] at hgroups ⊢
      omega
  · obtain ⟨d, p, bs, hdigit, hbs, heven, hnone, -, rfl⟩ := (chkw_result_iff hs h hexec).mp hresult
    cases bs with
    | nil =>
      rw [hnone rfl] at hdigit
      exact .inl (by rw [← padEnc_of_padDec hdigit]; rfl)
    | cons b bs =>
      refine .inr ⟨(bs.length + 1) / 2, ?_⟩
      simp only [List.length_cons, hblock hbs] at heven ⊢
      omega
  · obtain ⟨bs, hbs, rfl⟩ := (chks_result_iff hs h hexec).mp hresult
    cases bs with
    | nil => exact .inl rfl
    | cons b bs => exact .inr ⟨bs.length + 1, by omega, by rw [hblock hbs, List.length_cons]⟩

/-! ## Re-encoding -/

/-- Acceptable data ends in `8p` zero bits, which the padding cuts off (R72, R73, R90). -/
theorem symbolBit_padding {p : Nat} {rest : List Byte} (hp : p ≤ 4) (hdata : AcceptableData p rest) {n : Nat}
    (hpad : 8 * (nbytes rest.length - p) ≤ n) (hn : n < 5 * rest.length) :
    symbolBit (fun k => sym2val (rest.getD k 0)) n = false := by
  obtain ⟨-, hgroups, -, hending⟩ := hdata
  have hlen : 8 * nbytes rest.length = 5 * rest.length := by unfold nbytes; omega
  have hbits := (endingCheckIsZeroPaddingBits p (lastEight rest) (by omega) hp).mp
    (hending (List.length_pos_iff.mp (by omega))) (n - 5 * (rest.length - 8)) (by omega) (by omega)
  rwa [symbolBit_lastEight, Nat.add_sub_cancel' (by omega)] at hbits

/-- A payload whose bits are those of acceptable data has its symbols (R71, R90). -/
theorem symbolsOf_payloadSym_eq {p : Nat} {rest payload : List Byte} (hp : p ≤ 4) (hdata : AcceptableData p rest)
    (hlen : payload.length = nbytes rest.length - p)
    (hbits : ∀ n < 8 * payload.length, streamBit (fun j => payload.getD j 0) n = symbolBit (fun k => sym2val (rest.getD k 0)) n) :
    symbolsOf (payloadSym payload) rest.length = rest := by
  refine List.ext_getElem (length_symbolsOf ..) fun k hk hk' => ?_
  have hvalue : payloadSym payload k = sym2val (rest.getD k 0) := packSym_eq_of_bits fun u hu => by
    rw [← symbolBit_symbol (fun k => sym2val (rest.getD k 0)) k hu]
    by_cases hin : (5 * k + u) / 8 < payload.length
    · rw [decide_eq_true hin, Bool.true_and, hbits _ (by omega)]
    · rw [decide_eq_false hin, Bool.false_and, symbolBit_padding hp hdata (by omega) (by omega)]
  obtain ⟨hvalid, -⟩ := hdata
  simp only [symbolsOf, List.getElem_map, List.getElem_range, hvalue, ← List.getElem_eq_getD (h := hk')]
  exact val2sym_sym2val (List.all_eq_true.mp hvalid _ (List.getElem_mem hk'))

/-- Settles O31: the payload's bits are those of the data but the padding, which is zeros, so its symbols are the data; its length
gives the padding back. -/
theorem reencodingGivesTheSymbolsBack : Obligations.ReencodingGivesTheSymbolsBack := by
  intro s t v u w text payload hs h hchka hresult hdec hdeliver _ hu henc hok
  obtain ⟨d, p, rest, hstrip, hdigit, hdata⟩ := (chka_result_iff hs h hchka).mp hresult
  have hdata : AcceptableData p rest := hdata
  have hp := padDec_le hdigit
  obtain ⟨out, hdec', hout⟩ := exec_dec_of_symbols h hstrip hdigit hdata
  obtain rfl := eq_of_exec hdec hdec'
  obtain ⟨holen, hcells⟩ := hdeliver
  have hlen : payload.length = nbytes rest.length - p := holen.symm
  have hsymbols := symbolsOf_payloadSym_eq hp hdata hlen (Streams.bits (hlen ▸ hout) hcells)
  obtain ⟨-, hgroups, hnone, -⟩ := hdata
  have hcount : rest.length = 8 * ((payload.length + 4) / 5) ∧ padCalc payload.length = p := by
    unfold nbytes at hlen
    unfold padCalc
    by_cases hnil : rest.length = 0
    · have := hnone (List.length_eq_zero_iff.mp hnil)
      omega
    · omega
  obtain ⟨hrest, hpad⟩ := hcount
  obtain ⟨-, -, hwcells, hwpad⟩ := exec_enc_ok hu henc hok
  refine ⟨?_, by rw [hwpad, hpad, chka_pad hs h hchka hstrip hdigit], fun k hk => ?_⟩
  · rw [hwcells, hstrip, normalText, hpad, padEnc_of_padDec hdigit]
    rfl
  · rw [hstrip, List.length_cons] at hk
    rw [hwcells, hstrip, List.getElem?_cons_succ, ← hsymbols, getElem?_symbolsOf _ (by omega)]
    exact getElem?_normalText_symbol (by omega)

end Sys2Proof.Machine

/-! Two runs of one command compared: the same text (R75), and texts that are equal after separator stripping (R80). -/

namespace Sys2Proof.Machine

/-- Two states show the same results, and the same `EPOS` where `samePos` holds. -/
structure Alike (samePos : Prop) (t v : State) : Prop where
  result : t.result = v.result
  err : t.err = v.err
  olen : t.olen = v.olen
  echar : t.echar = v.echar
  pad : t.pad = v.pad
  epos : samePos → t.epos = v.epos
  obuf : ∀ j < t.olen, t.obuf.lookup j = v.obuf.lookup j

/-! ## The ends of a command keep the likeness -/

section
variable {samePos : Prop} {s u : State}

/-- Started states show the same results: none (R110). -/
theorem alike_of_started (hs : s.started) (hu : u.started) : Alike samePos s u := by
  obtain ⟨-, -, hsresult, hserr, hsolen, hsepos, hsechar, hspad⟩ := hs
  obtain ⟨-, -, huresult, huerr, huolen, huepos, huechar, hupad⟩ := hu
  exact ⟨hsresult.trans huresult.symm, hserr.trans huerr.symm, hsolen.trans huolen.symm, hsechar.trans huechar.symm,
    hspad.trans hupad.symm, fun _ => hsepos.trans huepos.symm, by simp [hsolen]⟩

variable (h : Alike samePos s u)
include h

theorem Alike.setPad (p : Nat) : Alike samePos (s.setPad p) (u.setPad p) := { h with pad := rfl }

theorem Alike.notePad (q : Option Nat) : Alike samePos (s.notePad q) (u.notePad q) := by
  cases q with
  | none => exact h
  | some p => exact h.setPad p

theorem Alike.raise (e : ErrCode) : Alike samePos (s.raise e) (u.raise e) :=
  { h with err := rfl, olen := rfl, obuf := fun _ _ => rfl }

theorem Alike.raiseChr {i i' : Nat} (hpos : samePos → i = i') (c : Byte) : Alike samePos (s.raiseChr i c) (u.raiseChr i' c) :=
  { h with err := rfl, olen := rfl, echar := rfl, epos := hpos, obuf := fun _ _ => rfl }

theorem Alike.answer (b : Bool) : Alike samePos (s.answer b) (u.answer b) := { h with result := rfl }

theorem Alike.deliver {out out' : Memory} {n : Nat} (hcells : ∀ j < n, out.lookup j = out'.lookup j) :
    Alike samePos (s.deliver out n) (u.deliver out' n) := { h with olen := rfl, obuf := hcells }

end

/-! ## The decoders -/

/-- The unpacking loop on the same characters: the same bytes, or a stop at the same place with the same character (R81, R95). -/
theorem unpackFrom_alike {S S' : Nat → Byte} {nb : Nat} {xs ys : List Nat} (h : xs.map S = ys.map S') (i : Nat) (W : List Byte) :
    (∃ W', unpackFrom S nb xs i W = .ok W' ∧ unpackFrom S' nb ys i W = .ok W') ∨
      ∃ k c, unpackFrom S nb xs i W = .error (xs.getD k 0, c) ∧ unpackFrom S' nb ys i W = .error (ys.getD k 0, c) := by
  induction xs generalizing ys i W with
  | nil =>
    obtain rfl := List.map_eq_nil_iff.mp h.symm
    exact .inl ⟨W, rfl, rfl⟩
  | cons x xs ih =>
    obtain ⟨y, ys, rfl, hy, hys⟩ := List.map_eq_cons_iff.mp h.symm
    simp only [unpackFrom, hy]
    split
    · rcases ih hys.symm (i + 1) (unpack W nb i (sym2val (S x))) with hok | ⟨k, c, herr, herr'⟩
      · exact .inl hok
      · exact .inr ⟨k + 1, c, herr, herr'⟩
    · exact .inr ⟨0, S x, rfl, rfl⟩

section
variable {samePos : Prop} {s u t v : State}

/-- The shared end of the decoders on the same characters. -/
theorem Alike.decodeData (h : Alike samePos s u) {xs ys : List Nat} (hchars : xs.map (s.readIbuf .data) = ys.map (u.readIbuf .data))
    (hpos : samePos → xs = ys) (cut : Nat) : Alike samePos (s.decodeData xs cut) (u.decodeData ys cut) := by
  have hlen : xs.length = ys.length := by simpa using congrArg List.length hchars
  unfold State.decodeData unpackAll
  rw [hlen]
  rcases unpackFrom_alike hchars 0 (List.replicate (nbytes ys.length) 0) with ⟨W, hok, hok'⟩ | ⟨k, c, herr, herr'⟩
  · rw [hok, hok']
    exact h.deliver fun _ _ => rfl
  · rw [herr, herr']
    exact h.raiseChr (fun hsame => by rw [hpos hsame]) c

variable {a b : List Byte} (hs : s.started) (hu : u.started) (ha : s.holds a) (hb : u.holds b) (hstrip : strip a = strip b)
  (hpos : samePos → nonsep (s.readIbuf .scan) s.ilen = nonsep (u.readIbuf .scan) u.ilen)
include hs hu ha hb hstrip hpos

/-- DEC sees the text after separator stripping (R80, R81). -/
theorem exec_dec_alike (hexec : exec .dec s = .next t) (hexec' : exec .dec u = .next v) : Alike samePos t v := by
  have hstart : Alike samePos s u := alike_of_started hs hu
  cases hchars : strip a with
  | nil =>
    rw [eq_of_exec hexec (exec_dec_of_strip_nil ha hchars), eq_of_exec hexec' (exec_dec_of_strip_nil hb (hstrip ▸ hchars))]
    exact hstart.raise .pad
  | cons d rest =>
    have hchars' : strip b = d :: rest := hstrip ▸ hchars
    cases hdigit : padDec d with
    | none =>
      rw [eq_of_exec hexec (exec_dec_of_strip_not_digit ha hchars hdigit),
        eq_of_exec hexec' (exec_dec_of_strip_not_digit hb hchars' hdigit)]
      exact hstart.raise .pad
    | some p =>
      by_cases hbad : rest.length % 8 ≠ 0 ∨ rest.length = 0 ∧ p > 0
      · rw [eq_of_exec hexec (exec_dec_of_strip_bad_length ha hchars hdigit hbad),
          eq_of_exec hexec' (exec_dec_of_strip_bad_length hb hchars' hdigit hbad)]
        exact (hstart.setPad p).raise .len
      · obtain ⟨x, xs, hscan, hxs, hend⟩ := exec_dec_of_strip_good_length ha hchars hdigit hbad
        obtain ⟨y, ys, hscan', hys, hend'⟩ := exec_dec_of_strip_good_length hb hchars' hdigit hbad
        rw [eq_of_exec hexec hend, eq_of_exec hexec' hend']
        refine (hstart.setPad p).decodeData (hxs.trans hys.symm) (fun hsame => ?_) p
        exact (List.cons.inj (hscan.symm.trans ((hpos hsame).trans hscan'))).2

/-- DECS sees the text after separator stripping (R80, R82). -/
theorem exec_decs_alike (hexec : exec .decs s = .next t) (hexec' : exec .decs u = .next v) : Alike samePos t v := by
  have hstart : Alike samePos s u := alike_of_started hs hu
  obtain ⟨hin, -, -⟩ := id ha
  obtain ⟨hin', -, -⟩ := id hb
  have hmap : (nonsep (s.readIbuf .scan) s.ilen).map (s.readIbuf .data) = (nonsep (u.readIbuf .scan) u.ilen).map (u.readIbuf .data) :=
    (map_nonsep_of_holds ha .data).trans (hstrip.trans (map_nonsep_of_holds hb .data).symm)
  have hlen : (nonsep (s.readIbuf .scan) s.ilen).length = (nonsep (u.readIbuf .scan) u.ilen).length := by
    simpa using congrArg List.length hmap
  by_cases hblocks : (nonsep (s.readIbuf .scan) s.ilen).length % 4 = 0
  · rw [eq_of_exec hexec (exec_decs_of_whole hin hblocks), eq_of_exec hexec' (exec_decs_of_whole hin' (hlen ▸ hblocks))]
    exact hstart.decodeData hmap hpos 0
  · rw [eq_of_exec hexec (exec_decs_of_ragged hin hblocks), eq_of_exec hexec' (exec_decs_of_ragged hin' (hlen ▸ hblocks))]
    exact hstart.raise .len

end

/-- Settles O28: both decoders work on the characters that are no separator; only the indices of these, and so `EPOS`, differ. -/
theorem decodersIgnoreSeparators : Obligations.DecodersIgnoreSeparators := by
  intro s u t v a b hs hu ha hb hstrip i hi hexec hexec'
  have halike : Alike False t v := by
    simp only [List.mem_cons, List.not_mem_nil, or_false] at hi
    rcases hi with rfl | rfl
    · exact exec_dec_alike hs hu ha hb hstrip nofun hexec hexec'
    · exact exec_decs_alike hs hu ha hb hstrip nofun hexec hexec'
  exact ⟨halike.err, halike.olen, halike.echar, halike.pad, halike.obuf⟩

/-! ## One text, any command -/

section
variable {s u t v : State} {text : List Byte} (hs : s.started) (hu : u.started) (ha : s.holds text) (hb : u.holds text)
include hs hu ha hb

theorem exec_enc_alike (hlenw : s.lenw = u.lenw) (hexec : exec .enc s = .next t) (hexec' : exec .enc u = .next v) :
    Alike True t v := by
  have hstart : Alike True s u := alike_of_started hs hu
  obtain ⟨hin, hlen, -⟩ := id ha
  obtain ⟨hin', hlen', -⟩ := id hb
  have hilen : u.ilen = s.ilen := hlen'.trans hlen.symm
  have hmax : s.obufMax = u.obufMax := by simp [hlenw]
  rcases Nat.lt_or_ge s.obufMax (needN (8 * ((s.ilen + 4) / 5))) with hlong | hfits
  · rw [eq_of_exec hexec (exec_enc_of_long hin hlong), eq_of_exec hexec' (exec_enc_of_long hin' (by rwa [hilen, ← hmax])), hilen]
    exact (hstart.setPad _).raise .cap
  · rw [eq_of_exec hexec (exec_enc_of_fits hin hfits), eq_of_exec hexec' (exec_enc_of_fits hin' (by rwa [hilen, ← hmax])), hilen]
    exact (hstart.setPad _).deliver fun j _ => by rw [lookup_encText ha, lookup_encText hb]

theorem exec_encs_alike (hlenw : s.lenw = u.lenw) (hexec : exec .encs s = .next t) (hexec' : exec .encs u = .next v) :
    Alike True t v := by
  have hstart : Alike True s u := alike_of_started hs hu
  obtain ⟨hin, hlen, -⟩ := id ha
  obtain ⟨hin', hlen', -⟩ := id hb
  have hilen : u.ilen = s.ilen := hlen'.trans hlen.symm
  have hmax : s.obufMax = u.obufMax := by simp [hlenw]
  by_cases h5 : s.ilen % 5 = 0
  · rcases Nat.lt_or_ge s.obufMax (needS (8 * (s.ilen / 5))) with hlong | hfits
    · rw [eq_of_exec hexec (exec_encs_of_long hin h5 hlong),
        eq_of_exec hexec' (exec_encs_of_long hin' (hilen ▸ h5) (by rwa [hilen, ← hmax]))]
      exact hstart.raise .cap
    · rw [eq_of_exec hexec (exec_encs_of_fits hin h5 hfits),
        eq_of_exec hexec' (exec_encs_of_fits hin' (hilen ▸ h5) (by rwa [hilen, ← hmax])), hilen]
      exact hstart.deliver fun j _ => by rw [lookup_encsText ha h5, lookup_encsText hb (hilen ▸ h5)]
  · rw [eq_of_exec hexec (exec_encs_of_ragged hin h5), eq_of_exec hexec' (exec_encs_of_ragged hin' (hilen ▸ h5))]
    exact hstart.raise .len

/-- The three predicates decide a property of the text, and CHKA and CHKW parse its padding digit (R85). -/
theorem exec_predicate_alike {i : Instr} (hi : i ∈ [Instr.chkw, .chka, .chks]) (hexec : exec i s = .next t)
    (hexec' : exec i u = .next v) : Alike True t v := by
  have hstart : Alike True s u := alike_of_started hs hu
  obtain ⟨haccept, hpad⟩ := acceptCheck_spec (reads_of_holds ha)
  obtain ⟨haccept', hpad'⟩ := acceptCheck_spec (reads_of_holds hb)
  have hcheck : acceptCheck s.readIbuf text.length = acceptCheck u.readIbuf text.length :=
    Prod.ext (Bool.eq_iff_iff.mpr (haccept.trans haccept'.symm)) (hpad.trans hpad'.symm)
  have hanswer {b b' : Bool} {q : Option Nat} {P : Prop} (hb : b = true ↔ P) (hb' : b' = true ↔ P) :
      Alike True ((s.notePad q).answer b) ((u.notePad q).answer b') := by
    rw [Bool.eq_iff_iff.mpr (hb.trans hb'.symm)]
    exact (hstart.notePad q).answer b'
  simp only [List.mem_cons, List.not_mem_nil, or_false] at hi
  rcases hi with rfl | rfl | rfl
  · have hnormal := chkw_result_iff hs ha hexec
    have hnormal' := chkw_result_iff hu hb hexec'
    rw [eq_of_exec hexec (exec_chkw_of_holds ha)] at hnormal ⊢
    rw [eq_of_exec hexec' (exec_chkw_of_holds hb)] at hnormal' ⊢
    rw [hcheck] at hnormal ⊢
    exact hanswer hnormal hnormal'
  · rw [eq_of_exec hexec (exec_chka_of_holds ha), eq_of_exec hexec' (exec_chka_of_holds hb), hcheck]
    exact (hstart.notePad _).answer _
  · rw [eq_of_exec hexec (exec_chks_of_holds ha), eq_of_exec hexec' (exec_chks_of_holds hb)]
    exact hanswer (q := none) (strictCheck_iff (reads_of_holds ha .cadence)) (strictCheck_iff (reads_of_holds hb .cadence))

/-- A command on a text that two started states hold (R75). -/
theorem exec_alike_of_holds {i : Instr} (hlenw : s.lenw = u.lenw) (hexec : exec i s = .next t) (hexec' : exec i u = .next v) :
    Alike True t v := by
  have hscan : nonsep (s.readIbuf .scan) s.ilen = nonsep (u.readIbuf .scan) u.ilen := by
    obtain ⟨-, hlen, -⟩ := id ha
    obtain ⟨-, hlen', -⟩ := id hb
    rw [hlen, hlen']
    exact nonsep_congr fun i hi => (reads_of_holds ha .scan i hi).trans (reads_of_holds hb .scan i hi).symm
  cases i with
  | rsvd =>
    rw [eq_of_exec hexec (exec_rsvd s), eq_of_exec hexec' (exec_rsvd u)]
    exact (alike_of_started hs hu).raise .ill
  | enc => exact exec_enc_alike hs hu ha hb hlenw hexec hexec'
  | encs => exact exec_encs_alike hs hu ha hb hlenw hexec hexec'
  | dec => exact exec_dec_alike hs hu ha hb rfl (fun _ => hscan) hexec hexec'
  | decs => exact exec_decs_alike hs hu ha hb rfl (fun _ => hscan) hexec hexec'
  | chkw | chka | chks => exact exec_predicate_alike hs hu ha hb (by decide) hexec hexec'

end

/-- On absent input the encoders and the decoders fault with `E_NIL` (R76, R77, R81, R82). -/
theorem exec_codec_of_absent {i : Instr} {s : State} (hi : i ∈ [Instr.enc, .encs, .dec, .decs]) (hin : s.inValid = false) :
    exec i s = .next (s.raise .nil) := by
  simp only [List.mem_cons, List.not_mem_nil, or_false] at hi
  rcases hi with rfl | rfl | rfl | rfl
  · exact exec_enc_of_absent hin
  · exact exec_encs_of_absent hin
  · exact exec_dec_of_absent hin
  · exact exec_decs_of_absent hin

/-- A command that meets no input (R75, R85, R91). -/
theorem exec_alike_of_absent {i : Instr} {s u t v : State} (hs : s.started) (hu : u.started) (hin : s.inValid = false)
    (hin' : u.inValid = false) (hexec : exec i s = .next t) (hexec' : exec i u = .next v) : Alike True t v := by
  have hstart : Alike True s u := alike_of_started hs hu
  cases i with
  | rsvd =>
    rw [eq_of_exec hexec (exec_rsvd s), eq_of_exec hexec' (exec_rsvd u)]
    exact hstart.raise .ill
  | enc | encs | dec | decs =>
    rw [eq_of_exec hexec (exec_codec_of_absent (by decide) hin), eq_of_exec hexec' (exec_codec_of_absent (by decide) hin')]
    exact hstart.raise .nil
  | chkw | chka | chks =>
    rw [eq_of_exec hexec (exec_predicate_of_absent (by decide) hin), eq_of_exec hexec' (exec_predicate_of_absent (by decide) hin')]
    exact hstart.answer false

/-- The bytes below `ILEN`, where each is written. -/
def State.inputText (s : State) : List Byte := (List.range s.ilen).map fun i => (s.ibuf.lookup i).getD 0

/-- An input whose bytes are all written is a text. -/
theorem State.holds_inputText {s : State} (hin : s.inValid = true) (h : ∀ a < s.ilen, (s.ibuf.lookup a).isSome = true) :
    s.holds s.inputText := by
  refine ⟨hin, by simp [State.inputText], fun i hi => ?_⟩
  have hi : i < s.ilen := by simpa [State.inputText] using hi
  obtain ⟨b, hb⟩ := Option.isSome_iff_exists.mp (h i hi)
  simp [State.inputText, hi, hb]

/-- Settles O9: an absent input has one end for each command; a present one is a text, the same in both states. -/
theorem commandsDependOnTheirInputOnly : Obligations.CommandsDependOnTheirInputOnly := by
  intro i s u t v hs hu hlenw hin hlen hbytes hexec hexec'
  have halike : Alike True t v := by
    cases hpresent : s.inValid with
    | false => exact exec_alike_of_absent hs hu hpresent (hin ▸ hpresent) hexec hexec'
    | true =>
      have hs' := State.holds_inputText hpresent fun a ha => (hbytes hpresent a ha).1
      obtain ⟨-, hslen, hcells⟩ := id hs'
      refine exec_alike_of_holds hs hu hs' ⟨hin ▸ hpresent, hlen ▸ hslen, fun a ha => ?_⟩ hlenw hexec hexec'
      rw [← hcells a ha, (hbytes hpresent a (by rwa [hslen])).2]
  obtain ⟨hbusy, hdone⟩ := exec_ended hexec
  obtain ⟨hbusy', hdone'⟩ := exec_ended hexec'
  obtain ⟨-, -, hvalid, -⟩ := exec_keepsInput hexec
  obtain ⟨-, -, hvalid', -⟩ := exec_keepsInput hexec'
  obtain ⟨-, -, -, -, holen, -⟩ := hs
  refine ⟨?_, halike.olen, halike.epos trivial, halike.echar, halike.pad,
    fun a ha => ⟨exec_output_fixed hexec holen a ha, halike.obuf a ha⟩⟩
  rw [State.status, State.status, halike.err, halike.result, hvalid, hvalid', hin, hbusy, hbusy', hdone, hdone']

end Sys2Proof.Machine

/-! The steps of the machine and the host's accesses (R8, R12 to R22, R36, R47, R105 to R113). -/

namespace Sys2Proof.Machine

/-! ## Command words -/

/-- Settles O2: `decode_encode`, and the eight words one by one. -/
theorem decodeAndEncodeAgree : Obligations.DecodeAndEncodeAgree :=
  ⟨fun i _ => decode_encode i, by decide⟩

/-! ## Whose turn it is -/

section
variable {s : State}

theorem coreTurn_of_busy (h : s.busy = true) : coreTurn s = exec (decode s.cmd) s := if_pos h

theorem coreTurn_of_idle (h : s.busy = false) : coreTurn s = .next s := by simp [coreTurn, h]

theorem step_of_no_turn (h : s.moves = []) : step s = coreTurn s := by simp [step, turn, h]

variable {ms : List Move}

theorem step_of_core (h : s.moves = .core :: ms) : step s = coreTurn { s with moves := ms } := by
  simp [step, turn, State.popMove, h]

theorem step_of_host {a : HostAction} (h : s.moves = .host a :: ms) : step s = hostAct a { s with moves := ms } := by
  simp [step, turn, State.popMove, h]

theorem step_of_waiting (h : s.moves = .await :: ms) (hdone : s.done = false) : step s = coreTurn s := by
  simp [step, turn, h, hdone]

theorem step_of_waited (h : s.moves = .await :: ms) (hdone : s.done = true) : step s = .next { s with moves := ms } := by
  simp [step, turn, State.popMove, h, hdone]

end

/-- Settles O3: in each of the three ways the turn is the core's, and with `BUSY = 1` it runs the command. -/
theorem stepRunsTheCommandInCmd : Obligations.StepRunsTheCommandInCmd := by
  intro s hbusy
  refine ⟨fun h => ?_, fun ms h => ?_, fun ms h hdone => ?_⟩
  · rw [step_of_no_turn h, coreTurn_of_busy hbusy]
  · rw [step_of_core h]
    exact coreTurn_of_busy hbusy
  · rw [step_of_waiting h hdone, coreTurn_of_busy hbusy]

/-- Settles O4: the turn is the core's, and with `BUSY = 0` it has no step. -/
theorem idleCoreKeepsItsState : Obligations.IdleCoreKeepsItsState := by
  intro s hidle
  refine ⟨fun h => ?_, fun ms h => ?_⟩
  · rw [step_of_no_turn h, coreTurn_of_idle hidle]
  · rw [step_of_core h]
    exact coreTurn_of_idle hidle

/-- Settles O5: the placed word's turn is the core's, and its `START` has set `BUSY`. -/
theorem placedCommandRunsNext : Obligations.PlacedCommandRunsNext := by
  intro s nbits w
  rw [step_of_core (s := s.withFetchWord nbits w) rfl]
  exact coreTurn_of_busy rfl

/-! ## Host writes while `BUSY = 0` -/

section
variable {s : State} (h : s.busy = false)
include h

theorem hostAct_cmd_of_idle (v : Nat) : hostAct (.writeReg .cmd v) s = .next (s.setCmd (BitVec.ofNat 3 v)) := by
  simp [hostAct, State.hostWriteReg, commandOfWord, h]

theorem hostAct_ilen_of_idle (v : Nat) : hostAct (.writeReg .ilen v) s = .next (s.setIlen v) := by
  simp [hostAct, State.hostWriteReg, h]

theorem hostAct_ctrl_of_idle (v : Nat) : hostAct (.writeReg .ctrl v) s = .next (s.writeCtrl v) :=
  congrArg Host.Outcome.next (State.hostWriteReg_ctrl_of_idle h v)

end

/-- Settles O48: the two writes reach their registers; `CMD` keeps three bits of the word. -/
theorem ilenWriteDeclaresTheInput : Obligations.IlenWriteDeclaresTheInput := by
  intro s v hidle
  have hcmd : BitVec.ofNat 3 (v % 8) = BitVec.ofNat 3 v := BitVec.eq_of_toNat_eq (by simp)
  rw [hostAct_ilen_of_idle hidle, hostAct_cmd_of_idle hidle, hcmd]
  exact ⟨rfl, rfl⟩

/-! ## `RUN` -/

/-- A machine step that goes on takes one of the steps left. -/
theorem coreRun_succ {s t : State} (n : Nat) (h : step s = .next t) :
    Host.Core.run Sys2Proof.core (n + 1) s = Host.Core.run Sys2Proof.core n t := by
  simp only [Host.Core.run]
  rw [show Sys2Proof.core.step s = .next t from h]

/-- Settles O6: the host's two writes set `CMD` and start the command, the core runs it, and the host sees `DONE`. -/
theorem runTakesTheCommandToDone : Obligations.RunTakesTheCommandToDone := by
  intro s i ms hidle hmoves
  obtain ⟨-, t, hexec, -⟩ := exec_ends i ({ s with moves := .await :: ms }.setCmd (encode i)).acceptStart
  obtain ⟨-, hdone⟩ := exec_ended hexec
  obtain ⟨-, -, -, -, -, htmoves, -⟩ := exec_keepsInput hexec
  refine ⟨t, hexec, hdone, ?_⟩
  have hcmd : step s = .next ({ s with moves := .host (.writeReg .ctrl 1) :: .await :: ms }.setCmd (encode i)) := by
    rw [step_of_host (ms := .host (.writeReg .ctrl 1) :: .await :: ms) hmoves, hostAct_cmd_of_idle (by exact hidle),
      BitVec.ofNat_toNat, BitVec.setWidth_eq]
  have hstart : step ({ s with moves := .host (.writeReg .ctrl 1) :: .await :: ms }.setCmd (encode i)) =
      .next ({ s with moves := .await :: ms }.setCmd (encode i)).acceptStart := by
    rw [step_of_host rfl, hostAct_ctrl_of_idle (by exact hidle)]
    rfl
  have hrun : step ({ s with moves := .await :: ms }.setCmd (encode i)).acceptStart = .next t := by
    rw [step_of_waiting rfl rfl, coreTurn_of_busy rfl, State.acceptStart_cmd, State.setCmd_cmd, decode_encode, hexec]
  rw [coreRun_succ 3 hcmd, coreRun_succ 2 hstart, coreRun_succ 1 hrun, coreRun_succ 0 (step_of_waited htmoves hdone)]
  rfl

/-! ## `STATUS` -/

/-- The bits of `STATUS` that are one flag each (R16). -/
theorem testBit_packStatus : ∀ (err : BitVec 3) (inValid result done busy : Bool),
    (packStatus err inValid result done busy).toNat.testBit 0 = busy ∧
      (packStatus err inValid result done busy).toNat.testBit 1 = done ∧
      (packStatus err inValid result done busy).toNat.testBit 3 = inValid := by
  decide

/-- `STATUS` as a number (R16). -/
theorem toNat_packStatus : ∀ (err : BitVec 3) (inValid result done busy : Bool),
    (packStatus err inValid result done busy).toNat =
      busy.toNat + 2 * done.toNat + 4 * result.toNat + 8 * inValid.toNat + 16 * err.toNat := by
  decide

theorem State.hostReadReg_status_of_idle {s : State} (h : s.busy = false) : s.hostReadReg .status = s.status.toNat := by
  simp [State.hostReadReg, h]

/-! ## The other host accesses -/

/-- Settles O46: the state the reset input leaves has the reset values and an idle block. -/
theorem resetInputAbandonsTheCommand : Obligations.ResetInputAbandonsTheCommand := by
  intro s
  refine ⟨s.resetInput, rfl, fun r => ?_, rfl, rfl, rfl, fun _ => ⟨rfl, rfl⟩, rfl, rfl, rfl⟩
  cases r with
  | status => rw [State.hostReadReg_status_of_idle rfl, State.status, toNat_packStatus]; rfl
  | cmd | ctrl | ilen | olen | epos | echar | pad => rfl

/-- Settles O50: the write is `Memory.write`, read back by `Memory.lookup_write`; no other field has changed. -/
theorem cellWriteChangesOneCell : Obligations.CellWriteChangesOneCell := by
  intro s a b hidle ha
  refine ⟨_, hostAct_writeCell_of_lt (b := .ibuf) ha b, ?_⟩
  rw [State.hostWriteCell_of_idle hidle]
  refine ⟨?_, fun x hx => ?_, fun _ => rfl, fun r => ?_, rfl⟩
  · exact State.readIbuf_of_lookup _ _ _ _ (Memory.lookup_write_same ..)
  · simp only [State.hostReadCell, State.readIbuf, Memory.lookup_write_ne _ _ _ (Ne.symm hx)]
  · cases r <;> rfl

/-- While `BUSY = 0` a host read changes no later read (R36). -/
theorem State.observe_of_idle {s : State} (h : s.busy = false) (o : Observation) : s.observe o = { s with seen := s.seen ++ [o] } := by
  simp [State.observe, h]

/-- Settles O51: both reads are `State.observe`, which while `BUSY = 0` only notes what the host has seen. -/
theorem readsChangeNothing : Obligations.ReadsChangeNothing := by
  intro s r b a ha
  have hkeeps (o : Observation) : s.observe o = { s with seen := (s.observe o).seen, draws := (s.observe o).draws } ∧
      (s.busy = false → (∀ r', (s.observe o).hostReadReg r' = s.hostReadReg r') ∧
        ∀ b' a', (s.observe o).hostReadCell b' a' = s.hostReadCell b' a') := by
    refine ⟨rfl, fun hidle => ?_⟩
    rw [State.observe_of_idle hidle]
    exact ⟨fun r' => by cases r' <;> rfl, fun b' a' => by cases b' <;> rfl⟩
  refine ⟨_, _, rfl, if_pos ha, fun w hw => ?_, rfl, rfl⟩
  simp only [List.mem_cons, List.not_mem_nil, or_false] at hw
  rcases hw with rfl | rfl
  · exact hkeeps _
  · exact hkeeps _

/-! ## What a host reads -/

/-- Settles O52: the fixed bits of `State.statusWhileBusy`, and the reads that do not look at `BUSY`. -/
theorem readsWhileBusyShowTheOperands : Obligations.ReadsWhileBusyShowTheOperands := by
  intro s hbusy
  have hstatus : s.hostReadReg .status = s.statusWhileBusy.toNat := if_pos hbusy
  obtain ⟨hbit0, hbit1, hbit3⟩ := testBit_packStatus (BitVec.ofNat 3 (Config.unspecReg s.draws (hostRegNumber .status) >>> 4)) s.inValid
    ((Config.unspecReg s.draws (hostRegNumber .status)).testBit 2) false true
  rw [hstatus]
  exact ⟨hbit0, hbit1, hbit3, rfl, rfl, fun a b h => State.readIbuf_of_lookup s _ a b h⟩

/-- Settles O53: `toNat_packStatus` with `BUSY = 0`; the numbers of the codes are the definition's. -/
theorem statusWordHasItsFields : Obligations.StatusWordHasItsFields := by
  refine ⟨fun s hidle => ?_, rfl, rfl, rfl, rfl, rfl, rfl, rfl, rfl⟩
  rw [State.hostReadReg_status_of_idle hidle, State.status, toNat_packStatus, hidle, Bool.toNat_false, Nat.zero_add]

end Sys2Proof.Machine

/-! The invariant of the machine: it holds after reset, every step keeps it, and what follows from it (R7, R15 to R22, R96, R97, R110). -/

namespace Sys2Proof.Machine

/-! ## Updates that keep the invariant -/

section
variable {s : State}

/-- The invariant does not speak of `CMD`, `IN_VALID` and the model's own fields but `LENW`. -/
theorem State.Inv.of_same {t : State} (h : s.Inv)
    (hsame : t = { s with cmd := t.cmd, inValid := t.inValid, draws := t.draws, moves := t.moves, seen := t.seen }) : t.Inv := by
  rw [hsame]
  exact { h with }

/-- `LENW` is at least 4, so there is a cell 0 (R7). -/
theorem State.Inv.ibufMax_pos (h : s.Inv) : 0 < s.ibufMax := Nat.zero_lt_of_lt h.epos_lt

/-- Whatever is cleared meets the invariant, and the buffers and the input are as they were (R110). -/
theorem State.Inv.acceptStart (h : s.Inv) : s.acceptStart.Inv :=
  { h with
    olen_le := Nat.zero_le _
    epos_lt := h.ibufMax_pos
    chr_only := fun _ => ⟨rfl, rfl⟩
    pad_le := Nat.zero_le _
    not_pcons := nofun
    not_both := fun hboth => Bool.false_ne_true hboth.2
    busy_cleared := fun _ => ⟨rfl, rfl, rfl, rfl, rfl, rfl⟩
    fault_empty := fun hfault => absurd rfl hfault
    result_empty := fun _ => rfl
    output_fixed := fun _ hi => absurd hi (Nat.not_lt_zero _) }

/-- `ILEN` keeps the low `LENW` bits of the word (R12, R15). -/
theorem State.Inv.setIlen (h : s.Inv) (v : Nat) : (s.setIlen v).Inv :=
  { h with ilen_le := Nat.le_sub_one_of_lt (Nat.mod_lt v (Nat.two_pow_pos s.lenw)) }

/-- A change of `IBUF` that keeps its canonical form (R21). -/
theorem State.Inv.withIbuf (h : s.Inv) {m : Memory} (hm : m.wf s.ibufMax = true) : ({ s with ibuf := m } : State).Inv :=
  { h with ibuf_wf := hm }

end

/-- A buffer has a cell 0 (R7). -/
theorem bufMax_pos {lenw : Nat} (h : Config.lenwMin ≤ lenw) : 0 < Config.bufMax lenw := by
  have hcells : 2 ^ Config.lenwMin ≤ 2 ^ lenw := Nat.pow_le_pow_right (by decide) h
  have hmin : 2 ^ Config.lenwMin = 16 := rfl
  unfold Config.bufMax
  omega

/-- A state as after reset, but for the model's own fields, meets the invariant (R29). -/
theorem inv_of_reset {s : State} (hlenw : Config.lenwMin ≤ s.lenw)
    (hreset : s = { State.reset with lenw := s.lenw, draws := s.draws, moves := s.moves, seen := s.seen }) : s.Inv := by
  rw [hreset]
  exact
    { lenw_ge := hlenw
      ibuf_wf := rfl
      obuf_wf := rfl
      ilen_le := Nat.zero_le _
      olen_le := Nat.zero_le _
      epos_lt := bufMax_pos hlenw
      chr_only := fun _ => ⟨rfl, rfl⟩
      pad_le := Nat.zero_le _
      not_pcons := nofun
      not_both := fun hboth => Bool.false_ne_true hboth.1
      busy_cleared := nofun
      fault_empty := fun hfault => absurd rfl hfault
      result_empty := nofun
      output_fixed := fun _ hi => absurd hi (Nat.not_lt_zero _) }

theorem State.Inv.resetInput {s : State} (h : s.Inv) : s.resetInput.Inv := inv_of_reset h.lenw_ge rfl

/-- Settles O55: `LENW` is 16 after reset. -/
theorem resetMeetsTheInvariant : Obligations.ResetMeetsTheInvariant := inv_of_reset (by decide) rfl

/-! ## The end of a command -/

section
variable {s s' t : State} (hends : EndsIn s s' t)
include hends

/-- The output of a command fits wherever its input and the longest output do (R17, R22). -/
theorem EndsIn.output_fits {cap : Nat} (hroom : max s.ilen s.obufMax ≤ cap) (hobuf : s'.obuf.wf cap = true) (holen : s'.olen = 0) :
    t.obuf.wf cap = true ∧ t.olen ≤ cap := by
  cases hends with
  | fault | badChar => exact ⟨rfl, Nat.zero_le _⟩
  | answer b => exact ⟨hobuf, by simp [holen]⟩
  | output m n hn hw hf hb => exact ⟨hw cap (hn.trans hroom), hn.trans hroom⟩

/-- A bad character is a character of the input (R18). -/
theorem EndsIn.epos_lt {cap : Nat} (hroom : s.ilen ≤ cap) (hepos : s'.epos < cap) : t.epos < cap := by
  cases hends with
  | fault | answer | output => exact hepos
  | badChar x c hx => exact hx.trans_le hroom

/-- Only a bad character writes `EPOS` and `ECHAR` (R18, R19). -/
theorem EndsIn.chr_only (hclear : s'.epos = 0 ∧ s'.echar = 0) : t.err ≠ .chr → t.epos = 0 ∧ t.echar = 0 := by
  cases hends with
  | fault | answer | output => exact fun _ => hclear
  | badChar x c hx => exact fun hchr => absurd rfl hchr

/-- After a fault there is no output and no result (R96). -/
theorem EndsIn.fault_empty (hok : s'.err = .ok) (hresult : s'.result = false) :
    t.err ≠ .ok → t.olen = 0 ∧ t.obuf = [] ∧ t.result = false := by
  cases hends with
  | fault | badChar => exact fun _ => ⟨rfl, rfl, hresult⟩
  | answer | output => exact fun hfault => absurd hok hfault

/-- Only a predicate gives a result, and it has no output (R17). -/
theorem EndsIn.result_empty (hresult : s'.result = false) (holen : s'.olen = 0) : t.result = true → t.olen = 0 := by
  cases hends with
  | answer b => exact fun _ => holen
  | fault | badChar | output => exact fun htrue => absurd (hresult.symm.trans htrue) Bool.false_ne_true

end

/-- A command that runs from a state of the invariant ends in one (R75, R96). -/
theorem exec_keeps_inv {i : Instr} {s t : State} (h : s.Inv) (hbusy : s.busy = true) (hexec : exec i s = .next t) : t.Inv := by
  obtain ⟨hresult, herr, holen, hepos, hechar, hpad⟩ := h.busy_cleared hbusy
  obtain ⟨hidle, -⟩ := exec_ended hexec
  obtain ⟨-, hilen, -, hibuf, hlenw, -⟩ := exec_keepsInput hexec
  obtain ⟨q, hq, hends⟩ := exec_ends_in hexec
  have hmax : t.ibufMax = s.ibufMax := by simp [hlenw]
  have hroom : max s.ilen s.obufMax ≤ s.ibufMax := Nat.max_le.mpr ⟨h.ilen_le, Nat.le_refl _⟩
  obtain ⟨hobuf, hfits⟩ := hends.output_fits hroom (by simpa using h.obuf_wf) (by simpa using holen)
  have hpad' : t.pad.toNat ≤ 4 := by
    rw [hends.pad_eq]
    rcases s.notePad_pad_le hq with hsame | hle
    · exact hsame ▸ h.pad_le
    · exact hle
  exact
    { lenw_ge := hlenw ▸ h.lenw_ge
      ibuf_wf := by rw [hibuf, hmax]; exact h.ibuf_wf
      obuf_wf := by rw [State.obufMax_eq, hlenw]; exact hobuf
      ilen_le := by rw [hilen, hmax]; exact h.ilen_le
      olen_le := by rw [State.obufMax_eq, hlenw]; exact hfits
      epos_lt := by rw [hmax]; exact hends.epos_lt h.ilen_le (by simpa using h.epos_lt)
      chr_only := hends.chr_only (by simp [hepos, hechar])
      pad_le := hpad'
      not_pcons := fun hcode => h.not_pcons (paddingConsistencyCodeIsNeverWritten i s t hexec hcode)
      not_both := fun hboth => Bool.false_ne_true (hidle.symm.trans hboth.1)
      busy_cleared := fun hbusy' => absurd (hidle.symm.trans hbusy') Bool.false_ne_true
      fault_empty := hends.fault_empty (by simpa using herr) (by simpa using hresult)
      result_empty := hends.result_empty (by simpa using hresult) (by simpa using holen)
      output_fixed := exec_output_fixed hexec holen }

/-! ## The turns -/

section
variable {s t : State} (h : s.Inv)
include h

theorem coreTurn_keeps_inv (hturn : coreTurn s = .next t) : t.Inv := by
  cases hbusy : s.busy with
  | false =>
    rw [coreTurn_of_idle hbusy] at hturn
    cases hturn
    exact h
  | true =>
    rw [coreTurn_of_busy hbusy] at hturn
    exact exec_keeps_inv h hbusy hturn

theorem State.Inv.writeCtrl (v : Nat) : (s.writeCtrl v).Inv := by
  have hinput : ({ s with inValid := !v.testBit 1 && s.inValid } : State).Inv := h.of_same rfl
  cases hstart : v.testBit 0 with
  | false =>
    rw [s.writeCtrl_of_not_start hstart]
    exact hinput
  | true =>
    rw [s.writeCtrl_of_start hstart]
    exact hinput.acceptStart

theorem State.Inv.hostWriteReg (r : HostReg) (v : Nat) : (s.hostWriteReg r v).Inv := by
  cases hbusy : s.busy with
  | true => rwa [State.hostWriteReg_of_busy hbusy]
  | false =>
    simp only [State.hostWriteReg, hbusy, Bool.false_eq_true, if_false]
    cases r with
    | cmd => exact h.of_same rfl
    | ctrl => exact h.writeCtrl v
    | ilen => exact h.setIlen v
    | status | olen | epos | echar | pad => exact h

theorem State.Inv.hostWriteCell {b : Buffer} {i : Nat} (hi : i < s.bufMax b) (v : Byte) : (s.hostWriteCell b i v).Inv := by
  cases b with
  | obuf => exact h
  | ibuf =>
    cases hbusy : s.busy with
    | true => rwa [State.hostWriteCell_of_busy hbusy]
    | false =>
      rw [State.hostWriteCell_of_idle hbusy]
      exact h.withIbuf (Memory.wf_write v h.ibuf_wf hi)

theorem State.Inv.copyOutput {n : Nat} (hn : n ≤ s.ibufMax) : (s.copyOutput n).Inv := by
  rw [State.copyOutput_eq]
  exact h.withIbuf (State.wf_copyOutput h.ibuf_wf n hn)

theorem hostAct_keeps_inv {a : HostAction} (hact : hostAct a s = .next t) : t.Inv := by
  cases a with
  | writeReg r v =>
    cases hact
    exact h.hostWriteReg r v
  | writeCell b i v =>
    simp only [hostAct] at hact
    split at hact
    · cases hact
      exact h.hostWriteCell ‹_› v
    · cases hact
  | readReg r =>
    cases hact
    exact h.of_same rfl
  | readCell b i =>
    simp only [hostAct] at hact
    split at hact
    · cases hact
      exact h.of_same rfl
    · cases hact
  | movo =>
    simp only [hostAct, State.moveOutput] at hact
    split at hact
    · cases hact
      exact h.of_same rfl
    · split at hact
      · cases hact
      · cases hact
        exact (h.copyOutput h.olen_le).hostWriteReg .ilen s.olen
  | reset =>
    cases hact
    exact h.resetInput

end

/-- Settles O56: the turn is the core's, the host's, or a wait that is over. -/
theorem stepKeepsTheInvariant : Obligations.StepKeepsTheInvariant := by
  intro s t h hstep
  have hpop (ms : List Move) : ({ s with moves := ms } : State).Inv := h.of_same rfl
  match hmoves : s.moves with
  | [] =>
    rw [step_of_no_turn hmoves] at hstep
    exact coreTurn_keeps_inv h hstep
  | .core :: ms =>
    rw [step_of_core hmoves] at hstep
    exact coreTurn_keeps_inv (hpop ms) hstep
  | .host a :: ms =>
    rw [step_of_host hmoves] at hstep
    exact hostAct_keeps_inv (hpop ms) hstep
  | .await :: ms =>
    cases hdone : s.done with
    | false =>
      rw [step_of_waiting hmoves hdone] at hstep
      exact coreTurn_keeps_inv h hstep
    | true =>
      rw [step_of_waited hmoves hdone] at hstep
      cases hstep
      exact hpop ms

/-! ## What follows from the invariant -/

/-- The core's turn has a next state (R111). -/
theorem exists_coreTurn (s : State) : ∃ t, coreTurn s = .next t := by
  cases hbusy : s.busy with
  | false => exact ⟨s, coreTurn_of_idle hbusy⟩
  | true =>
    obtain ⟨-, t, hexec, -⟩ := exec_ends (decode s.cmd) s
    exact ⟨t, (coreTurn_of_busy hbusy).trans hexec⟩

/-- A host access that names only cells that exist has a next state (R118). -/
theorem exists_hostAct {s : State} (h : s.Inv) {a : HostAction} (ha : a.wellFormed s.lenw = true) : ∃ t, hostAct a s = .next t := by
  rcases hostAct_cases a s with hnext | ⟨b, i, hab, hi, -⟩ | ⟨-, -, hlong⟩
  · exact hnext
  · have hmax : s.bufMax b = Config.bufMax s.lenw := by cases b <;> rfl
    have hlt : i < Config.bufMax s.lenw := by
      rcases hab with rfl | ⟨v, rfl⟩
      · exact of_decide_eq_true ha
      · exact of_decide_eq_true ha
    omega
  · exact absurd h.olen_le (Nat.not_le.mpr hlong)

/-- Settles O57: the core's turn always has a next state, the host's where it names cells that exist, and a wait that is over goes
on. -/
theorem wellFormedTurnsNeverStop : Obligations.WellFormedTurnsNeverStop := by
  intro s h hwf
  match hmoves : s.moves with
  | [] =>
    rw [step_of_no_turn hmoves]
    exact exists_coreTurn s
  | .core :: ms =>
    rw [step_of_core hmoves]
    exact exists_coreTurn _
  | .host a :: ms =>
    rw [step_of_host hmoves]
    exact exists_hostAct (h.of_same rfl) (hwf (.host a) (by rw [hmoves]; rfl))
  | .await :: ms =>
    cases hdone : s.done with
    | false =>
      rw [step_of_waiting hmoves hdone]
      exact exists_coreTurn s
    | true => exact ⟨_, step_of_waited hmoves hdone⟩

/-- A capacity is less than what `LENW` bits count to (R7). -/
theorem lt_two_pow_of_le_bufMax {lenw n : Nat} (h : n ≤ Config.bufMax lenw) : n < 2 ^ lenw :=
  Nat.lt_of_le_pred (Nat.two_pow_pos lenw) h

/-- A free value is cut to the register's width (R12, log 6). -/
theorem State.unspecWord_lt (s : State) (r : HostReg) : s.unspecWord r < 2 ^ hostRegWidth s.lenw r :=
  Nat.mod_lt _ (Nat.two_pow_pos _)

/-- Settles O54: the lengths are within the capacities, the other registers are words of their width, and a free value is cut to
it. -/
theorem registerReadsFitTheirWidth : Obligations.RegisterReadsFitTheirWidth := by
  intro s r h
  have hfree {r : HostReg} {n : Nat} (hn : n < 2 ^ hostRegWidth s.lenw r) :
      (if s.busy then s.unspecWord r else n) < 2 ^ hostRegWidth s.lenw r := by
    split
    · exact s.unspecWord_lt r
    · exact hn
  cases r with
  | cmd => exact s.cmd.isLt
  | ctrl => exact Nat.two_pow_pos 2
  | ilen => exact lt_two_pow_of_le_bufMax h.ilen_le
  | status =>
    simp only [State.hostReadReg]
    split
    · exact s.statusWhileBusy.isLt
    · exact s.status.isLt
  | olen => exact hfree (lt_two_pow_of_le_bufMax h.olen_le)
  | epos => exact hfree (lt_two_pow_of_le_bufMax h.epos_lt.le)
  | echar => exact hfree s.echar.isLt
  | pad => exact hfree s.pad.isLt

/-- `MOVO` while `BUSY = 0`, of an output that fits (R47). -/
theorem hostAct_movo_of_idle {s : State} (hidle : s.busy = false) (hfits : s.olen ≤ s.ibufMax) :
    hostAct .movo s = .next ((s.copyOutput s.olen).setIlen s.olen) := by
  have hcopied : (s.copyOutput s.olen).busy = false := by
    rw [State.copyOutput_eq]
    exact hidle
  simp only [hostAct, State.moveOutput, hidle, Bool.false_eq_true, if_false, if_neg (Nat.not_lt.mpr hfits), State.hostWriteReg, hcopied]

/-- An output byte reads as its value (R22). -/
theorem State.lookup_output {s : State} (h : s.Inv) (hidle : s.busy = false) {a : Nat} (ha : a < s.olen) :
    s.obuf.lookup a = some (s.hostReadCell .obuf a) := by
  obtain ⟨b, hb⟩ := Option.isSome_iff_exists.mp (h.output_fixed a ha)
  simp [State.hostReadCell, hidle, hb]

/-- Settles O58: the copy is `State.copyOutput`, cell by cell, and the length fits `ILEN`. -/
theorem movoMakesTheOutputTheInput : Obligations.MovoMakesTheOutputTheInput := by
  intro s h hidle
  have hlen : s.olen % 2 ^ s.lenw = s.olen := Nat.mod_eq_of_lt (lt_two_pow_of_le_bufMax h.olen_le)
  have hcells := State.lookup_copyOutput hidle s.olen
  refine ⟨_, hostAct_movo_of_idle hidle h.olen_le, rfl, ?_, ?_, ?_, fun a ha => ?_, fun a ha => ?_⟩
  · rw [State.setIlen_ilen, State.copyOutput_eq]
    exact hlen
  · rw [State.setIlen_olen, State.copyOutput_eq]
  · rw [State.setIlen_obuf, State.copyOutput_eq]
  · rw [State.setIlen_ibuf, hcells, if_pos ha, State.lookup_output h hidle ha]
  · rw [State.setIlen_ibuf, hcells, if_neg (Nat.not_lt.mpr ha)]

end Sys2Proof.Machine
